-- ==== Sys2Proof/Word.lean ====
section
/-! DEFINITION. The word of the block (00_scope.md R9): a W-bit two's-complement integer. "A word's value is its signed integer
value" (R10), so a word is held as that value, an `Int`; W is a parameter of the instance (R8), so its range is the predicate
`IsWord W`, not the type. -/

namespace Sys2Proof

/-- The least word, -2^(W-1) (00_scope.md R9). -/
def wordMin (W : Nat) : Int := -(2 ^ (W - 1) : Nat)

/-- The greatest word, 2^(W-1) - 1 (00_scope.md R9). -/
def wordMax (W : Nat) : Int := (2 ^ (W - 1) : Nat) - 1

/-- `x` lies in the word range of width `W` (00_scope.md R9, 41_arithmetic.md R114). -/
abbrev IsWord (W : Nat) (x : Int) : Prop := wordMin W ≤ x ∧ x ≤ wordMax W

end Sys2Proof
end

