-- ==== Sys2Proof/Syntax.lean ====
section
/-! DEFINITION. The opcodes and the instructions of rsvm-19 (30_encoding.md R72): one constructor per row of the opcode table. -/

namespace Sys2Proof

/-- The 19 opcodes (30_encoding.md R72), in the order of their ids. -/
inductive Opcode where
  | halt
  | push
  | pop
  | add
  | sub
  | mul
  | div
  | jump
  | jumpIfEqual
  | jumpIfNotEqual
  | jumpIfLessThan
  | jumpIfGreaterThan
  | jumpIfLessThanOrEqual
  | jumpIfGreaterThanOrEqual
  | call
  | ret
  | print
  | store
  | load
  deriving DecidableEq, Repr

/-- An instruction: "one variant per Opcode, carrying the operand value (if arity 1) as a typed field" (30_encoding.md R80). -/
inductive Instr where
  | halt
  | push (k : Int)
  | pop
  | add
  | sub
  | mul
  | div
  | jump (k : Int)
  | jumpIfEqual (k : Int)
  | jumpIfNotEqual (k : Int)
  | jumpIfLessThan (k : Int)
  | jumpIfGreaterThan (k : Int)
  | jumpIfLessThanOrEqual (k : Int)
  | jumpIfGreaterThanOrEqual (k : Int)
  | call (k : Int)
  | ret
  | print
  | store (k : Int)
  | load (k : Int)
  deriving DecidableEq, Repr

/-- The opcode of an instruction. -/
def Instr.opcode : Instr → Opcode
  | .halt => .halt
  | .push _ => .push
  | .pop => .pop
  | .add => .add
  | .sub => .sub
  | .mul => .mul
  | .div => .div
  | .jump _ => .jump
  | .jumpIfEqual _ => .jumpIfEqual
  | .jumpIfNotEqual _ => .jumpIfNotEqual
  | .jumpIfLessThan _ => .jumpIfLessThan
  | .jumpIfGreaterThan _ => .jumpIfGreaterThan
  | .jumpIfLessThanOrEqual _ => .jumpIfLessThanOrEqual
  | .jumpIfGreaterThanOrEqual _ => .jumpIfGreaterThanOrEqual
  | .call _ => .call
  | .ret => .ret
  | .print => .print
  | .store _ => .store
  | .load _ => .load

/-- The inline operand of an instruction, where its format has one (30_encoding.md R70). -/
def Instr.operand? : Instr → Option Int
  | .halt => none
  | .push k => some k
  | .pop => none
  | .add => none
  | .sub => none
  | .mul => none
  | .div => none
  | .jump k => some k
  | .jumpIfEqual k => some k
  | .jumpIfNotEqual k => some k
  | .jumpIfLessThan k => some k
  | .jumpIfGreaterThan k => some k
  | .jumpIfLessThanOrEqual k => some k
  | .jumpIfGreaterThanOrEqual k => some k
  | .call k => some k
  | .ret => none
  | .print => none
  | .store k => some k
  | .load k => some k

end Sys2Proof
end

