-- ==== Sys2Proof/WellFormed.lean ====
section
/-! DEFINITION. Which instructions are instructions of a W-bit instance: the operand is a word (30_encoding.md R80, R82). -/

namespace Sys2Proof

/-- "Every operand of an Instruction is a word" (30_encoding.md R80); an operand that does not fit a word
is no instruction (R82). There is no other check: every word is a legal operand (R78). -/
abbrev Instr.WellFormed (W : Nat) (i : Instr) : Prop := ∀ k ∈ i.operand?, IsWord W k

/-- A program all of whose instructions are well formed. -/
abbrev ProgramWellFormed (W : Nat) (is : List Instr) : Prop := ∀ i ∈ is, i.WellFormed W

end Sys2Proof
end

