-- ==== Sys2Proof/Decode.lean ====
section
/-! DEFINITION. `instruction_decoder` and the encoding (30_encoding.md R70 to R75), and after it the encoder and the
assembler's lowering (R80, R81). -/

namespace Sys2Proof

/-- The numeric identifier of an opcode (30_encoding.md R72). -/
def Opcode.id : Opcode → Int
  | .halt => 0x00
  | .push => 0x01
  | .pop => 0x02
  | .add => 0x03
  | .sub => 0x04
  | .mul => 0x05
  | .div => 0x06
  | .jump => 0x07
  | .jumpIfEqual => 0x08
  | .jumpIfNotEqual => 0x09
  | .jumpIfLessThan => 0x0A
  | .jumpIfGreaterThan => 0x0B
  | .jumpIfLessThanOrEqual => 0x0C
  | .jumpIfGreaterThanOrEqual => 0x0D
  | .call => 0x0E
  | .ret => 0x0F
  | .print => 0x10
  | .store => 0x11
  | .load => 0x12

/-- The number of inline operand cells (30_encoding.md R74). -/
def Opcode.arity : Opcode → Nat
  | .halt => 0
  | .push => 1
  | .pop => 0
  | .add => 0
  | .sub => 0
  | .mul => 0
  | .div => 0
  | .jump => 1
  | .jumpIfEqual => 1
  | .jumpIfNotEqual => 1
  | .jumpIfLessThan => 1
  | .jumpIfGreaterThan => 1
  | .jumpIfLessThanOrEqual => 1
  | .jumpIfGreaterThanOrEqual => 1
  | .call => 1
  | .ret => 0
  | .print => 0
  | .store => 1
  | .load => 1

/-- The width of an instruction in cells, 1 + arity (30_encoding.md R74). -/
def Opcode.width (op : Opcode) : Nat := 1 + op.arity

/-- The decoder's verdict on one fetched word: an opcode, or `none` for INVALID, on every word (30_encoding.md R73). -/
def decodeOpcode (w : Int) : Option Opcode :=
  match w with
  | 0 => some .halt
  | 1 => some .push
  | 2 => some .pop
  | 3 => some .add
  | 4 => some .sub
  | 5 => some .mul
  | 6 => some .div
  | 7 => some .jump
  | 8 => some .jumpIfEqual
  | 9 => some .jumpIfNotEqual
  | 10 => some .jumpIfLessThan
  | 11 => some .jumpIfGreaterThan
  | 12 => some .jumpIfLessThanOrEqual
  | 13 => some .jumpIfGreaterThanOrEqual
  | 14 => some .call
  | 15 => some .ret
  | 16 => some .print
  | 17 => some .store
  | 18 => some .load
  | _ => none

/-- The instruction of an opcode and its operand cell; an opcode of arity 0 has no operand and takes no notice of `k`. -/
def Opcode.instr (k : Int) : Opcode → Instr
  | .halt => .halt
  | .push => .push k
  | .pop => .pop
  | .add => .add
  | .sub => .sub
  | .mul => .mul
  | .div => .div
  | .jump => .jump k
  | .jumpIfEqual => .jumpIfEqual k
  | .jumpIfNotEqual => .jumpIfNotEqual k
  | .jumpIfLessThan => .jumpIfLessThan k
  | .jumpIfGreaterThan => .jumpIfGreaterThan k
  | .jumpIfLessThanOrEqual => .jumpIfLessThanOrEqual k
  | .jumpIfGreaterThanOrEqual => .jumpIfGreaterThanOrEqual k
  | .call => .call k
  | .ret => .ret
  | .print => .print
  | .store => .store k
  | .load => .load k

/-- Why a sequence of cells does not begin with an instruction. -/
inductive DecodeError where
  /-- There is no cell to decode. -/
  | noCell
  /-- The opcode cell holds none of 0 to 18 (30_encoding.md R78). -/
  | invalidOpcode (w : Int)
  /-- The opcode takes an operand and no cell follows it. -/
  | missingOperand (op : Opcode)
  deriving DecidableEq, Repr

/-- Decode the instruction at the head of a sequence of cells; answers it with the cells after it (30_encoding.md R73 to R75). -/
def decode (cells : List Int) : Except DecodeError (Instr × List Int) :=
  match cells with
  | [] => .error .noCell
  | w :: rest =>
    match decodeOpcode w with
    | none => .error (.invalidOpcode w)
    | some op =>
      if op.arity = 0 then .ok (op.instr 0, rest)
      else
        match rest with
        | [] => .error (.missingOperand op)
        | k :: rest' => .ok (op.instr k, rest')

/-- The cells of an instruction (30_encoding.md R70, R80): its opcode's id, then its operand if it has one. -/
def encode (i : Instr) : List Int := i.opcode.id :: i.operand?.toList

/-- The assembler's lowering of a sequence of instructions to a program image (30_encoding.md R80). -/
def assemble : List Instr → List Int
  | [] => []
  | i :: is => encode i ++ assemble is

/-- Decode up to `fuel` instructions from a sequence of cells, all of it. -/
def disassembleWith : Nat → List Int → Except DecodeError (List Instr)
  | _, [] => .ok []
  | 0, _ :: _ => .error .noCell
  | fuel + 1, w :: ws =>
    match decode (w :: ws) with
    | .error e => .error e
    | .ok (i, rest) =>
      match disassembleWith fuel rest with
      | .error e => .error e
      | .ok is => .ok (i :: is)

/-- "re-decoding the output using the Opcode/arity table" (30_encoding.md R81); an instruction takes at least one cell,
so the number of cells is fuel enough. -/
def disassemble (cells : List Int) : Except DecodeError (List Instr) := disassembleWith cells.length cells

/-- The signed value of a `bits`-wide cell given as an unsigned number (00_scope.md R9). -/
def signedCell (bits n : Nat) : Int :=
  if n % 2 ^ bits < 2 ^ (bits - 1) then (n % 2 ^ bits : Nat) else (n % 2 ^ bits : Nat) - (2 ^ bits : Nat)

/-- The two cells of an instruction numbered as spec/opcode_table.json numbers it: the opcode cell is bits 31..0, the operand
cell bits 63..32, the bits from `nbits` up are 0 (log 11; the table is written for the reference W = 32). -/
def tableCells (nbits w : Nat) : List Int :=
  [signedCell 32 (w % 2 ^ nbits), signedCell 32 (w % 2 ^ nbits / 2 ^ 32)]

/-- The instruction the decoder reads from a table word, `none` where it refuses. -/
def decodeTableWord (nbits w : Nat) : Option Instr :=
  match decode (tableCells nbits w) with
  | .ok (i, _) => some i
  | .error _ => none

end Sys2Proof
end

