-- ==== Sys2Proof/Config.lean ====
section
/-! DEFINITION. The construction-time parameters of an instance of the block (00_scope.md R8). -/

namespace Sys2Proof

/-- OVERFLOW_POLICY (00_scope.md R8, 41_arithmetic.md R114). -/
inductive OverflowPolicy where
  | wrap
  | fault
  deriving DecidableEq, Repr

/-- The parameters of one instance (00_scope.md R8); they are fixed at construction (10_state.md R36). -/
structure Params where
  /-- WORD_BITS, the width W of every cell, stack entry, operand and of `ip`. -/
  wordBits : Nat
  /-- MEM_CAP, the number of memory cells. -/
  memCap : Nat
  /-- STACK_CAP, the greatest stack depth; `none` is `unbounded`. -/
  stackCap : Option Nat
  /-- OVERFLOW_POLICY. -/
  overflow : OverflowPolicy
  /-- PRINT_CONSUMES. -/
  printConsumes : Bool
  /-- DEBUG_RA_CHECK. -/
  debugRaCheck : Bool
  deriving DecidableEq, Repr

/-- The legal values of 00_scope.md R8: W ≥ 8, 0 ≤ MEM_CAP ≤ 2^(W-1) - 2, STACK_CAP ≥ 1 or unbounded. -/
abbrev Params.Legal (p : Params) : Prop :=
  8 ≤ p.wordBits ∧ p.memCap + 2 ≤ 2 ^ (p.wordBits - 1) ∧ ∀ c ∈ p.stackCap, 1 ≤ c

end Sys2Proof
end

