-- ==== Sys2Proof/Machine/Flags.lean ====
section
/-! DEFINITION. The computations of `stack_alu` on words: wrapping, overflow, division and the six relations (41_arithmetic.md
R114, R115; 42_control.md R131). The block has no flags (10_state.md R31): a relation decides one jump and is not kept. -/

namespace Sys2Proof.Machine

/-- The unique word congruent to `x` modulo 2^W (00_scope.md R11). -/
def wrapW (W : Nat) (x : Int) : Int := Int.bmod x (2 ^ W)

/-- The mathematical result `x` lies outside the word range (41_arithmetic.md R114). -/
def overflows (W : Nat) (x : Int) : Bool := !decide (IsWord W x)

/-- The quotient b / a rounded toward zero (41_arithmetic.md R115). -/
def truncDiv (b a : Int) : Int := Int.tdiv b a

/-- The relations of the six conditional jumps (42_control.md R132 to R137). -/
inductive Comparison where
  | equal
  | notEqual
  | lessThan
  | greaterThan
  | lessThanOrEqual
  | greaterThanOrEqual
  deriving DecidableEq, Repr

/-- "the stated relation as `a <rel> b`", signed, with `a` the most recently pushed (42_control.md R131). -/
def Comparison.holds (r : Comparison) (a b : Int) : Bool :=
  match r with
  | .equal => decide (a = b)
  | .notEqual => decide (a ≠ b)
  | .lessThan => decide (a < b)
  | .greaterThan => decide (a > b)
  | .lessThanOrEqual => decide (a ≤ b)
  | .greaterThanOrEqual => decide (a ≥ b)

end Sys2Proof.Machine
end

