-- ==== Sys2Proof/Machine/Instance.lean ====
section
/-! DEFINITION. The parameters of the instance that `State.reset` builds (00_scope.md R8, 95_test_vectors.md). -/

namespace Sys2Proof.Machine

/-- The configuration of 95_test_vectors.md: W = 32, MEM_CAP = 32, STACK_CAP unbounded, wrap, PRINT_CONSUMES and
DEBUG_RA_CHECK false. DESIGN CHOICE (log 2), unsafe: R8 leaves W, MEM_CAP and STACK_CAP open. -/
def referenceParams : Params :=
  { wordBits := 32, memCap := 32, stackCap := none, overflow := .wrap, printConsumes := false, debugRaCheck := false }

end Sys2Proof.Machine
end

