-- ==== Sys2Proof/Machine/State.lean ====
section
/-! DEFINITION. The state of the block (10_state.md), the reasons a step can stop, and the state after reset (R38). -/

namespace Sys2Proof.Machine

/-- One entry of the operand stack (10_state.md R24): its word, and the tag bit of R29, which is true for a return
address pushed by Call. With DEBUG_RA_CHECK false "the tag does not exist": it is then held false and never read (log 9). -/
structure StackEntry where
  word : Int
  tag : Bool
  deriving DecidableEq, Repr

/-- The memory: the cells that hold something other than 0, as (address, word), in rising order of address (20_memory.md
R50; log 3). -/
abbrev Memory := List (Nat × Int)

/-- RUN_STATE (10_state.md R33). -/
inductive RunState where
  | ready
  | running
  | halted
  | faulted
  deriving DecidableEq, Repr

/-- The fatal conditions (60_exceptions.md R180). -/
inductive Condition where
  | invalidOpcode
  | stackUnderflow
  | divisionByZero
  | addressOutOfRange
  | programTooLarge
  | stackOverflow
  | arithmeticOverflow
  | badReturnAddress
  deriving DecidableEq, Repr

/-- The fault record (10_state.md R34). -/
structure FaultRecord where
  /-- FAULT_CODE, 4 bits. -/
  code : BitVec 4
  /-- FAULT_IP. -/
  ip : Int
  /-- FAULT_OPCODE. -/
  opcode : Int
  /-- FAULT_ADDR. -/
  addr : Int
  deriving DecidableEq, Repr

/-- What the host does at one point between dispatch steps (10_state.md R40; log 4). -/
inductive HostMove where
  /-- No command. -/
  | idle
  /-- RESET (10_state.md R41). -/
  | reset
  /-- LOAD(image) (10_state.md R42). -/
  | load (image : List Int)
  /-- START (10_state.md R44). -/
  | start
  deriving DecidableEq, Repr

/-- The state of the block. `params` and `host` are the model's own fields (log 2, log 4); the others are the spec's. -/
structure State where
  /-- The instance's construction-time parameters (00_scope.md R8); no step changes them (10_state.md R36). -/
  params : Params
  /-- The instruction pointer (10_state.md R20). -/
  ip : Int
  /-- The operand stack, its top first (10_state.md R24). -/
  stack : List StackEntry
  /-- The memory (20_memory.md R50). -/
  mem : Memory
  /-- RUN_STATE (10_state.md R33). -/
  runState : RunState
  /-- The fault record (10_state.md R34). -/
  faultRecord : FaultRecord
  /-- LOAD_STATUS, 4 bits (10_state.md R35). -/
  loadStatus : BitVec 4
  /-- The words delivered on the output port, oldest first (10_state.md R43). -/
  output : List Int
  /-- The host's moves to come, the next one first. -/
  host : List HostMove
  deriving DecidableEq, Repr

/-- The machine never stops with a fault outside its own state: a fatal condition is a NEXT state with RUN_STATE FAULTED and
the fault record written (60_exceptions.md R186; log 7). So no constructor; safe. -/
inductive Fault where
  deriving DecidableEq, Repr

/-- The reasons the model refuses a step. -/
inductive Refusal where
  /-- Raised by an arm of `exec` whose instruction has no meaning yet (none is left). Safe. -/
  | notModelled (mnemonic : String)
  /-- Raised by `step` in a state whose parameters 00_scope.md R8 does not allow, an instance that cannot be built: "a larger
  memory is refused by the model" (92_eei_decisions.md D6; log 8). Safe. -/
  | illegalParameters
  deriving DecidableEq, Repr

/-- What a step or a meaning answers. -/
abbrev Result := Host.Outcome State Fault Refusal

/-- The fault record when no fault is recorded (10_state.md R34, R38). -/
def FaultRecord.clear : FaultRecord := { code := 0, ip := 0, opcode := 0, addr := 0 }

/-- The state after RESET of an instance with parameters `p` (10_state.md R38, R41). -/
def State.resetOf (p : Params) : State :=
  { params := p
    ip := 0
    stack := []
    mem := []
    runState := .ready
    faultRecord := FaultRecord.clear
    loadStatus := 0
    output := []
    host := [] }

/-- The machine right after reset, for the reference instance (10_state.md R38; log 2 for the parameters). -/
def State.reset : State := State.resetOf referenceParams

end Sys2Proof.Machine
end

