-- ==== Sys2Proof/Machine/Ops.lean ====
section
/-! DEFINITION. The named operations over memory, stack, ip, output and fault record: the pseudocode primitives of
00_scope.md R11, and the entry into FAULTED (60_exceptions.md R186). -/

namespace Sys2Proof.Machine

/-! ### Memory (20_memory.md) -/

/-- What a cell that is not listed reads as: "zero-initialized" (20_memory.md R50). -/
def unlistedCell : Int := 0

/-- The canonical form of a memory: addresses strictly rising, no cell listed that holds what an unlisted one reads as. -/
abbrev Memory.wf (m : Memory) : Prop :=
  m.Pairwise (fun x y => x.1 < y.1) ∧ ∀ c ∈ m, c.2 ≠ unlistedCell

/-- The word of cell `a`. -/
def Memory.read : Memory → Nat → Int
  | [], _ => unlistedCell
  | (k, v) :: m, a => if k = a then v else Memory.read m a

/-- Put `v` in cell `a`, keeping the canonical form. -/
def Memory.write : Memory → Nat → Int → Memory
  | [], a, v => if v = unlistedCell then [] else [(a, v)]
  | (k, w) :: m, a, v =>
    if a < k then (if v = unlistedCell then (k, w) :: m else (a, v) :: (k, w) :: m)
    else if a = k then (if v = unlistedCell then m else (a, v) :: m)
    else (k, w) :: Memory.write m a v

/-- Copy `image` into the cells from `a` upward (10_state.md R42). -/
def Memory.copy (m : Memory) (a : Nat) : List Int → Memory
  | [] => m
  | v :: image => Memory.copy (m.write a v) (a + 1) image

/-- `valid(a)`: 0 <= a < MEM_CAP, comparing signed values (20_memory.md R51). -/
def validAddr (p : Params) (a : Int) : Bool := decide (0 ≤ a ∧ a < p.memCap)

/-- `MemRead(a, 1)`: `none` where `a` is not valid, no access being made (20_memory.md R51). -/
def State.memRead (s : State) (a : Int) : Option Int :=
  if validAddr s.params a then some (s.mem.read a.toNat) else none

/-- The write of `MemWrite(a, 1, v)` at an address already found valid (20_memory.md R51, R58). -/
def State.memWrite (s : State) (a : Int) (v : Int) : State := { s with mem := s.mem.write a.toNat v }

/-! ### Operand stack (10_state.md R24 to R29) -/

/-- `depth` (10_state.md R24). -/
def State.depth (s : State) : Nat := s.stack.length

/-- `drop(n)` (00_scope.md R11). -/
def State.drop (s : State) (n : Nat) : State := { s with stack := s.stack.drop n }

/-- STACK_CAP is finite and `depth` = STACK_CAP (10_state.md R25; log 10). -/
def State.stackFull (s : State) : Bool := s.params.stackCap == some s.depth

/-- `push(v)` of a plain value: tag 0 (10_state.md R29). -/
def State.push (s : State) (v : Int) : State := { s with stack := { word := v, tag := false } :: s.stack }

/-- `push(v)` of a return address by Call: tag 1 where DEBUG_RA_CHECK is true (10_state.md R29). -/
def State.pushReturn (s : State) (v : Int) : State :=
  { s with stack := { word := v, tag := s.params.debugRaCheck } :: s.stack }

/-! ### Instruction pointer, output, run state -/

/-- `ip <- t` (10_state.md R21). -/
def State.setIp (s : State) (t : Int) : State := { s with ip := t }

/-- Advance `ip` by the width of the instruction (10_state.md R21, 30_encoding.md R74). -/
def State.advance (s : State) (op : Opcode) : State := s.setIp (s.ip + op.width)

/-- `emit(v)`: one word on the output port (10_state.md R43). -/
def State.emit (s : State) (v : Int) : State := { s with output := s.output ++ [v] }

/-- `halt()` (00_scope.md R11). -/
def State.halt (s : State) : State := { s with runState := .halted }

/-! ### Entering FAULTED (60_exceptions.md R186). There is no return from it (R187). -/

/-- The numeric code of a condition (60_exceptions.md R180). -/
def Condition.code : Condition → BitVec 4
  | .invalidOpcode => 1
  | .stackUnderflow => 2
  | .divisionByZero => 3
  | .addressOutOfRange => 4
  | .programTooLarge => 5
  | .stackOverflow => 6
  | .arithmeticOverflow => 7
  | .badReturnAddress => 8

/-- The block enters FAULTED with its record written; nothing else changes (60_exceptions.md R186). -/
def State.enterFault (s : State) (c : Condition) (opcode addr : Int) : State :=
  { s with runState := .faulted, faultRecord := { code := c.code, ip := s.ip, opcode := opcode, addr := addr } }

/-- `raise E(info)`: the step ends in the fatal condition (00_scope.md R11, 60_exceptions.md R181, R186). -/
def raise (c : Condition) (opcode addr : Int) (s : State) : Result := .next (s.enterFault c opcode addr)

end Sys2Proof.Machine
end

