-- ==== Sys2Proof/Machine/Operands.lean ====
section
/-! DEFINITION. Where operands come from (10_state.md R23): one or two stack entries with the StackUnderflow check (R27, R30),
and the absolute address of Store and Load with its validity check (20_memory.md R57). The inline operand k is read by the fetch. -/

namespace Sys2Proof.Machine

/-- Go on with `top(0)`; StackUnderflow when the stack is empty (10_state.md R27). -/
def needOne (op : Opcode) (s : State) (body : StackEntry → Result) : Result :=
  match s.stack with
  | [] => raise .stackUnderflow op.id 0 s
  | a :: _ => body a

/-- Go on with a = `top(0)` and b = `top(1)`; StackUnderflow when there are fewer than two entries (10_state.md R27). -/
def needTwo (op : Opcode) (s : State) (body : Int → Int → Result) : Result :=
  match s.stack with
  | [] => raise .stackUnderflow op.id 0 s
  | [_] => raise .stackUnderflow op.id 0 s
  | a :: b :: _ => body a.word b.word

/-- Go on when there is room for a push; StackOverflow when the stack is full (10_state.md R25). -/
def needRoom (op : Opcode) (s : State) (body : Result) : Result :=
  if s.stackFull then raise .stackOverflow op.id 0 s else body

/-- Go on when the operand `k` is a valid address; AddressOutOfRange with `FAULT_ADDR` = k otherwise (20_memory.md R51, R57). -/
def needAddr (op : Opcode) (k : Int) (s : State) (body : Result) : Result :=
  if validAddr s.params k then body else raise .addressOutOfRange op.id k s

end Sys2Proof.Machine
end

