-- ==== Sys2Proof/Machine/Arithmetic.lean ====
section
/-! DEFINITION. The arithmetic instructions Add, Sub, Mul and Div (41_arithmetic.md). -/

namespace Sys2Proof.Machine

/-- Replace the two operands by the result whose mathematical value is `x`: under `wrap` the word congruent to it, under `fault`
ArithmeticOverflow when it is no word (41_arithmetic.md R114). -/
def finishArith (op : Opcode) (x : Int) (s : State) : Result :=
  if overflows s.params.wordBits x && s.params.overflow == .fault then raise .arithmeticOverflow op.id 0 s
  else .next (((s.drop 2).push (wrapW s.params.wordBits x)).advance op)

/-- Add: b + a (41_arithmetic.md R110). -/
def execAdd (s : State) : Result :=
  needTwo .add s fun a b => finishArith .add (b + a) s

/-- Sub: b - a, the top being the subtrahend (41_arithmetic.md R111). -/
def execSub (s : State) : Result :=
  needTwo .sub s fun a b => finishArith .sub (b - a) s

/-- Mul: b * a (41_arithmetic.md R112). -/
def execMul (s : State) : Result :=
  needTwo .mul s fun a b => finishArith .mul (b * a) s

/-- Div: b / a toward zero, the top being the divisor (41_arithmetic.md R113, R115). -/
def execDiv (s : State) : Result :=
  needTwo .div s fun a b =>
    if a = 0 then raise .divisionByZero Opcode.div.id 0 s
    else finishArith .div (truncDiv b a) s

end Sys2Proof.Machine
end

