-- ==== Sys2Proof/Machine/Control.lean ====
section
/-! DEFINITION. Control transfer: Jump, the six conditional jumps, Call and Return (42_control.md). -/

namespace Sys2Proof.Machine

/-- Jump(k): the target is not checked here (42_control.md R130, R140). -/
def execJump (k : Int) (s : State) : Result := .next (s.setIp k)

/-- The common rule of the conditional jumps: both operands are consumed whether or not the jump is taken (42_control.md R131). -/
def jumpIf (op : Opcode) (r : Comparison) (k : Int) (s : State) : Result :=
  needTwo op s fun a b => .next (if r.holds a b then (s.drop 2).setIp k else (s.drop 2).advance op)

/-- JumpIfEqual(k) (42_control.md R132). -/
def execJumpIfEqual (k : Int) (s : State) : Result := jumpIf .jumpIfEqual .equal k s

/-- JumpIfNotEqual(k) (42_control.md R133). -/
def execJumpIfNotEqual (k : Int) (s : State) : Result := jumpIf .jumpIfNotEqual .notEqual k s

/-- JumpIfLessThan(k) (42_control.md R134). -/
def execJumpIfLessThan (k : Int) (s : State) : Result := jumpIf .jumpIfLessThan .lessThan k s

/-- JumpIfGreaterThan(k) (42_control.md R135). -/
def execJumpIfGreaterThan (k : Int) (s : State) : Result := jumpIf .jumpIfGreaterThan .greaterThan k s

/-- JumpIfLessThanOrEqual(k) (42_control.md R136). -/
def execJumpIfLessThanOrEqual (k : Int) (s : State) : Result := jumpIf .jumpIfLessThanOrEqual .lessThanOrEqual k s

/-- JumpIfGreaterThanOrEqual(k) (42_control.md R137). -/
def execJumpIfGreaterThanOrEqual (k : Int) (s : State) : Result :=
  jumpIf .jumpIfGreaterThanOrEqual .greaterThanOrEqual k s

/-- Call(k): push ip + 2, "the address of the instruction following this Call" (42_control.md R138). -/
def execCall (k : Int) (s : State) : Result :=
  needRoom .call s (.next ((s.pushReturn (s.ip + 2)).setIp k))

/-- Return: pop the top into ip; with DEBUG_RA_CHECK only an entry pushed by Call will do (42_control.md R139). -/
def execRet (s : State) : Result :=
  needOne .ret s fun a =>
    if s.params.debugRaCheck && !a.tag then raise .badReturnAddress Opcode.ret.id 0 s
    else .next ((s.drop 1).setIp a.word)

end Sys2Proof.Machine
end

