-- ==== Sys2Proof/Machine/LoadStore.lean ====
section
/-! DEFINITION. The memory instructions Store and Load (44_load_store.md). -/

namespace Sys2Proof.Machine

/-- Store(k): pop the value and write it to cell k; StackUnderflow comes before the address check (44_load_store.md R160). -/
def execStore (k : Int) (s : State) : Result :=
  needOne .store s fun a =>
    needAddr .store k s (.next (((s.drop 1).memWrite k a.word).advance .store))

/-- Load(k): push the word of cell k; the address check comes before StackOverflow (44_load_store.md R161). -/
def execLoad (k : Int) (s : State) : Result :=
  match s.memRead k with
  | none => raise .addressOutOfRange Opcode.load.id k s
  | some v => needRoom .load s (.next ((s.push v).advance .load))

end Sys2Proof.Machine
end

