-- ==== Sys2Proof/Machine/Output.lean ====
section
/-! DEFINITION. The output instruction Print (43_print.md). -/

namespace Sys2Proof.Machine

/-- Print: emit the top; drop it only where PRINT_CONSUMES is true (43_print.md R150, R151). -/
def execPrint (s : State) : Result :=
  needOne .print s fun a =>
    .next ((if s.params.printConsumes then (s.emit a.word).drop 1 else s.emit a.word).advance .print)

end Sys2Proof.Machine
end

