-- ==== Sys2Proof/Machine/Stack.lean ====
section
/-! DEFINITION. The stack instructions Push and Pop (40_stack.md). -/

namespace Sys2Proof.Machine

/-- Push(k) (40_stack.md R100). -/
def execPush (k : Int) (s : State) : Result :=
  needRoom .push s (.next ((s.push k).advance .push))

/-- Pop (40_stack.md R101). -/
def execPop (s : State) : Result :=
  needOne .pop s fun _ => .next ((s.drop 1).advance .pop)

end Sys2Proof.Machine
end

