-- ==== Sys2Proof/Machine/System.lean ====
section
/-! DEFINITION. The system instruction Halt (45_halt.md). -/

namespace Sys2Proof.Machine

/-- Halt: RUN_STATE becomes HALTED; ip, stack and memory are unchanged (45_halt.md R170). -/
def execHalt (s : State) : Result := .next s.halt

end Sys2Proof.Machine
end

