-- ==== Sys2Proof/Machine/Dispatch.lean ====
section
/-! DEFINITION. The meaning of every instruction, one arm per constructor (30_encoding.md R72, R76). -/

namespace Sys2Proof.Machine

def exec (i : Instr) (s : State) : Host.Outcome State Fault Refusal :=
  match i with
  | .halt => Sys2Proof.Machine.execHalt s
  | .push k => Sys2Proof.Machine.execPush k s
  | .pop => Sys2Proof.Machine.execPop s
  | .add => Sys2Proof.Machine.execAdd s
  | .sub => Sys2Proof.Machine.execSub s
  | .mul => Sys2Proof.Machine.execMul s
  | .div => Sys2Proof.Machine.execDiv s
  | .jump k => Sys2Proof.Machine.execJump k s
  | .jumpIfEqual k => Sys2Proof.Machine.execJumpIfEqual k s
  | .jumpIfNotEqual k => Sys2Proof.Machine.execJumpIfNotEqual k s
  | .jumpIfLessThan k => Sys2Proof.Machine.execJumpIfLessThan k s
  | .jumpIfGreaterThan k => Sys2Proof.Machine.execJumpIfGreaterThan k s
  | .jumpIfLessThanOrEqual k => Sys2Proof.Machine.execJumpIfLessThanOrEqual k s
  | .jumpIfGreaterThanOrEqual k => Sys2Proof.Machine.execJumpIfGreaterThanOrEqual k s
  | .call k => Sys2Proof.Machine.execCall k s
  | .ret => Sys2Proof.Machine.execRet s
  | .print => Sys2Proof.Machine.execPrint s
  | .store k => Sys2Proof.Machine.execStore k s
  | .load k => Sys2Proof.Machine.execLoad k s

end Sys2Proof.Machine
end

