-- ==== Sys2Proof/Machine/Fetch.lean ====
section
/-! DEFINITION. The fetch part of the dispatch step (30_encoding.md R76): opcode fetch, decode, operand fetch; and the placing of
an instruction where the next step fetches it. -/

namespace Sys2Proof.Machine

/-- What the fetch of a dispatch step ends in: an instruction, or a fatal condition with FAULT_OPCODE and FAULT_ADDR. -/
inductive Fetched where
  | instr (i : Instr)
  | raised (c : Condition) (opcode addr : Int)
  deriving DecidableEq, Repr

/-- Opcode fetch, decode and operand fetch with their checks in this order (30_encoding.md R76, 20_memory.md R55, R56,
60_exceptions.md R183). An opcode of arity 0 makes no operand fetch. -/
def fetch (s : State) : Fetched :=
  match s.memRead s.ip with
  | none => .raised .addressOutOfRange 0 s.ip
  | some w =>
    match decodeOpcode w with
    | none => .raised .invalidOpcode w 0
    | some op =>
      if op.arity = 0 then .instr (op.instr 0)
      else
        match s.memRead (s.ip + 1) with
        | none => .raised .addressOutOfRange w (s.ip + 1)
        | some k => .instr (op.instr k)

/-- The words of the valid cells among the `n` cells from `a` upward: what a decoder can be given from there. -/
def State.cellsFrom (s : State) (a : Int) : Nat → List Int
  | 0 => []
  | n + 1 =>
    match s.memRead a with
    | none => []
    | some w => w :: s.cellsFrom (a + 1) n

/-- Put the words into the cells from `a` upward, so far as those addresses are valid. -/
def State.placeCells (s : State) (a : Int) : List Int → State
  | [] => s
  | v :: vs =>
    if validAddr s.params a then (s.memWrite a v).placeCells (a + 1) vs else s.placeCells (a + 1) vs

/-- Make the block run, with no host move pending, so that the next step is a dispatch step (log 11). -/
def State.setRunning (s : State) : State := { s with runState := .running, host := [] }

end Sys2Proof.Machine
end

