-- ==== Sys2Proof/Machine/HostPort.lean ====
section
/-! DEFINITION. The host interface: the commands RESET, LOAD and START and the status port (10_state.md R40 to R46). -/

namespace Sys2Proof.Machine

/-- RESET: accepted in every state (10_state.md R41). The host's own moves to come are not the block's state and stay. -/
def hostReset (s : State) : State := { State.resetOf s.params with host := s.host }

/-- LOAD(image): accepted only in READY, else without effect; an image longer than MEM_CAP leaves memory untouched and sets
LOAD_STATUS to the code of ProgramTooLarge (10_state.md R42, 60_exceptions.md R185; log 5). -/
def hostLoad (image : List Int) (s : State) : State :=
  match s.runState with
  | .ready =>
    if s.params.memCap < image.length then { s with loadStatus := Condition.programTooLarge.code }
    else { s with mem := s.mem.copy 0 image, loadStatus := 0 }
  | .running => s
  | .halted => s
  | .faulted => s

/-- START: accepted only in READY, else without effect (10_state.md R44; log 5). -/
def hostStart (s : State) : State :=
  match s.runState with
  | .ready => { s with runState := .running }
  | .running => s
  | .halted => s
  | .faulted => s

/-- RUN_STATE as the host reads it, 2 bits (10_state.md R33). -/
def RunState.code : RunState → BitVec 2
  | .ready => 0
  | .running => 1
  | .halted => 2
  | .faulted => 3

/-- What the host reads at the status port (10_state.md R45). -/
structure StatusPort where
  runState : BitVec 2
  faultCode : BitVec 4
  faultIp : Int
  faultOpcode : Int
  faultAddr : Int
  loadStatus : BitVec 4
  deriving DecidableEq, Repr

/-- The status port: RUN_STATE, the fault record and LOAD_STATUS; reading has no side effect (10_state.md R45). -/
def State.status (s : State) : StatusPort :=
  { runState := s.runState.code
    faultCode := s.faultRecord.code
    faultIp := s.faultRecord.ip
    faultOpcode := s.faultRecord.opcode
    faultAddr := s.faultRecord.addr
    loadStatus := s.loadStatus }

end Sys2Proof.Machine
end

