-- ==== Sys2Proof/Machine/Step.lean ====
section
/-! DEFINITION. One step of the model: one host command, or one dispatch step of the block (30_encoding.md R76, log 4). -/

namespace Sys2Proof.Machine

/-- The part of the dispatch step after the fetch: execute the instruction, or raise what the fetch found. -/
def runFetched (s : State) : Fetched → Result
  | .instr i => exec i s
  | .raised c opcode addr => raise c opcode addr s

/-- One dispatch step while RUNNING (30_encoding.md R76). In READY, HALTED and FAULTED the block takes no step and its state is
kept (10_state.md R33, 60_exceptions.md R200; log 6). -/
def dispatchStep (s : State) : Result :=
  match s.runState with
  | .ready => .next s
  | .running => runFetched s (fetch s)
  | .halted => .next s
  | .faulted => .next s

/-- The host's next move: a command is carried out and is the whole step; with no command (nothing pending, or `idle`) the block
takes its dispatch step. -/
def hostStep (s : State) : Result :=
  match s.host with
  | [] => dispatchStep s
  | .idle :: rest => dispatchStep { s with host := rest }
  | .reset :: rest => .next (hostReset { s with host := rest })
  | .load image :: rest => .next (hostLoad image { s with host := rest })
  | .start :: rest => .next (hostStart { s with host := rest })

/-- One step. An instance with parameters that 00_scope.md R8 does not allow is refused (92_eei_decisions.md D6; log 8). -/
def step (s : State) : Host.Outcome State Fault Refusal :=
  if s.params.Legal then hostStep s else .refused .illegalParameters

/-- The instruction of a table word stored where the next step fetches, and the block RUNNING with no host move pending
(log 11: it stands for RESET, LOAD of an image and START). -/
def State.withFetchWord (s : State) (nbits w : Nat) : State := (s.placeCells s.ip (tableCells nbits w)).setRunning

end Sys2Proof.Machine
end

