-- ==== Sys2Proof/Machine/Arbiter.lean ====
section
/-! DEFINITION. `memory_arbiter` seen from its requesters: the accesses a step makes, in their order (20_memory.md R59).
What an access does is in Machine/Ops.lean; this file says which are made. -/

namespace Sys2Proof.Machine

/-- Who asks the arbiter for an access (20_memory.md R59). -/
inductive Requester where
  | hostLoad
  | opcodeFetch
  | operandFetch
  | loadRead
  | storeWrite
  deriving DecidableEq, Repr

/-- One access: it moves one whole cell (20_memory.md R58). -/
structure Access where
  requester : Requester
  addr : Int
  deriving DecidableEq, Repr

/-- Does the access write its cell? -/
def Access.writes (x : Access) : Bool :=
  match x.requester with
  | .hostLoad => true
  | .opcodeFetch => false
  | .operandFetch => false
  | .loadRead => false
  | .storeWrite => true

/-- An access at a valid address; at an invalid one none is made (20_memory.md R51). -/
def accessAt (p : Params) (r : Requester) (a : Int) : List Access :=
  if validAddr p a then [{ requester := r, addr := a }] else []

/-- The data access of an instruction: only Store and Load make one (20_memory.md R57), a Store only with a value to write. -/
def dataAccess (i : Instr) (s : State) : List Access :=
  match i with
  | .store k => if s.stack.isEmpty then [] else accessAt s.params .storeWrite k
  | .load k => accessAt s.params .loadRead k
  | .halt | .push _ | .pop | .add | .sub | .mul | .div | .jump _ | .jumpIfEqual _ | .jumpIfNotEqual _ | .jumpIfLessThan _
  | .jumpIfGreaterThan _ | .jumpIfLessThanOrEqual _ | .jumpIfGreaterThanOrEqual _ | .call _ | .ret | .print => []

/-- The accesses of the fetch: the opcode fetch, and the operand fetch for an opcode of arity 1 (20_memory.md R55, R56). -/
def fetchAccesses (s : State) : List Access :=
  accessAt s.params .opcodeFetch s.ip ++
    match (s.memRead s.ip).bind decodeOpcode with
    | none => []
    | some op => if op.arity = 0 then [] else accessAt s.params .operandFetch (s.ip + 1)

/-- The accesses of a dispatch step, in order (20_memory.md R59). -/
def dispatchAccesses (s : State) : List Access :=
  match s.runState with
  | .ready => []
  | .running =>
    match fetch s with
    | .instr i => fetchAccesses s ++ dataAccess i s
    | .raised _ _ _ => fetchAccesses s
  | .halted => []
  | .faulted => []

/-- The writes of a LOAD: cells 0 to n - 1 in order, where it is accepted (10_state.md R42). -/
def loadAccesses (image : List Int) (s : State) : List Access :=
  match s.runState with
  | .ready =>
    if s.params.memCap < image.length then []
    else (List.range image.length).map fun j => { requester := .hostLoad, addr := (j : Int) }
  | .running => []
  | .halted => []
  | .faulted => []

/-- The accesses the arbiter serves in one step of the model, in order. -/
def stepAccesses (s : State) : List Access :=
  match s.host with
  | [] => dispatchAccesses s
  | .idle :: _ => dispatchAccesses s
  | .reset :: _ => []
  | .load image :: _ => loadAccesses image s
  | .start :: _ => []

end Sys2Proof.Machine
end

