-- ==== Sys2Proof/Machine/Assembler.lean ====
section
/-! DEFINITION. The assembly text form (30_encoding.md R82): software that produces images, not part of the hardware (R80).
Where R82 leaves a detail open the choice is in log 14. -/

namespace Sys2Proof.Machine

/-- "the mnemonic exactly as in rule R72, case-sensitive" (30_encoding.md R82). -/
def Opcode.mnemonic : Opcode → String
  | .halt => "Halt"
  | .push => "Push"
  | .pop => "Pop"
  | .add => "Add"
  | .sub => "Sub"
  | .mul => "Mul"
  | .div => "Div"
  | .jump => "Jump"
  | .jumpIfEqual => "JumpIfEqual"
  | .jumpIfNotEqual => "JumpIfNotEqual"
  | .jumpIfLessThan => "JumpIfLessThan"
  | .jumpIfGreaterThan => "JumpIfGreaterThan"
  | .jumpIfLessThanOrEqual => "JumpIfLessThanOrEqual"
  | .jumpIfGreaterThanOrEqual => "JumpIfGreaterThanOrEqual"
  | .call => "Call"
  | .ret => "Return"
  | .print => "Print"
  | .store => "Store"
  | .load => "Load"

/-- The 19 opcodes in the order of their ids (30_encoding.md R72). -/
def allOpcodes : List Opcode :=
  [.halt, .push, .pop, .add, .sub, .mul, .div, .jump, .jumpIfEqual, .jumpIfNotEqual, .jumpIfLessThan, .jumpIfGreaterThan,
    .jumpIfLessThanOrEqual, .jumpIfGreaterThanOrEqual, .call, .ret, .print, .store, .load]

/-- The opcode whose mnemonic the letters are. -/
def readMnemonic (cs : List Char) : Option Opcode :=
  allOpcodes.find? fun op => (Opcode.mnemonic op).toList == cs

/-- The value of a digit in base `base` (at most 16). -/
def digitValue (base : Nat) (c : Char) : Option Nat :=
  let v :=
    if '0' ≤ c ∧ c ≤ '9' then c.toNat - '0'.toNat
    else if 'a' ≤ c ∧ c ≤ 'f' then c.toNat - 'a'.toNat + 10
    else if 'A' ≤ c ∧ c ≤ 'F' then c.toNat - 'A'.toNat + 10
    else 16
  if v < base then some v else none

/-- Digits read on after the number `acc`. -/
def readDigits (base acc : Nat) : List Char → Option Nat
  | [] => some acc
  | c :: cs =>
    match digitValue base c with
    | none => none
    | some d => readDigits base (acc * base + d) cs

/-- One digit or more. -/
def readNumber (base : Nat) (cs : List Char) : Option Nat :=
  match cs with
  | [] => none
  | c :: cs => readDigits base 0 (c :: cs)

/-- "a signed decimal literal or a `0x` hexadecimal literal" (30_encoding.md R82). -/
def readLiteral (cs : List Char) : Option Int :=
  match cs with
  | '0' :: 'x' :: ds => (readNumber 16 ds).map fun n => (n : Int)
  | '-' :: ds => (readNumber 10 ds).map fun n => -(n : Int)
  | ds => (readNumber 10 ds).map fun n => (n : Int)

/-- Cut a text at every `sep`. -/
def splitText (sep : Char → Bool) : List Char → List (List Char)
  | [] => [[]]
  | c :: cs =>
    if sep c then [] :: splitText sep cs
    else
      match splitText sep cs with
      | [] => [[c]]
      | t :: ts => (c :: t) :: ts

/-- The tokens of a text: what stands between blanks. -/
def tokens (cs : List Char) : List (List Char) :=
  (splitText (fun c => c == ' ' || c == '\t' || c == '\r') cs).filter fun t => !t.isEmpty

/-- One instruction: a mnemonic, and an operand exactly when its format has one, whose value is a word (30_encoding.md R82). -/
def readInstr (W : Nat) (cs : List Char) : Option Instr :=
  match tokens cs with
  | [m] =>
    match readMnemonic m with
    | none => none
    | some op => if op.arity = 0 then some (op.instr 0) else none
  | [m, t] =>
    match readMnemonic m, readLiteral t with
    | some op, some k => if op.arity = 1 ∧ IsWord W k then some (op.instr k) else none
    | _, _ => none
  | _ => none

/-- All of them, or none. -/
def allSome : List (Option Instr) → Option (List Instr)
  | [] => some []
  | none :: _ => none
  | some i :: is => (allSome is).map (i :: ·)

/-- One line: text from `;` is a comment, a blank line is nothing, instructions are separated by commas (30_encoding.md R82).
DESIGN CHOICE (log 14), safe: a comma at the start or the end of a line, like one beside another comma, leaves an empty place,
which is no instruction, so the program is refused; R82 does not say. -/
def readLine (W : Nat) (cs : List Char) : Option (List Instr) :=
  let line := cs.takeWhile fun c => c != ';'
  if (tokens line).isEmpty then some []
  else allSome ((splitText (fun c => c == ',') line).map (readInstr W))

/-- A program text (30_encoding.md R82). -/
def readProgram (W : Nat) (cs : List Char) : Option (List Instr) :=
  ((splitText (fun c => c == '\n') cs).map (readLine W)).foldr
    (fun line rest => match line, rest with
      | some is, some js => some (is ++ js)
      | _, _ => none) (some [])

end Sys2Proof.Machine
end

