-- ==== Sys2Proof/Machine/Serial.lean ====
section
/-! DEFINITION. The byte form of a word for tools (20_memory.md R53); no rule of the machine reads bytes. -/

namespace Sys2Proof.Machine

/-- ceil(W/8), the bytes of a word (20_memory.md R53). -/
def wordBytes (W : Nat) : Nat := (W + 7) / 8

/-- The word sign-extended to 8 * ceil(W/8) bits, its bytes in little-endian order: byte k holds bits 8k+7 to 8k
(20_memory.md R53). -/
def serialise (W : Nat) (v : Int) : List (BitVec 8) :=
  (List.range (wordBytes W)).map fun k =>
    ((BitVec.ofInt W v).signExtend (8 * wordBytes W)).extractLsb' (8 * k) 8

/-- The number that bytes in little-endian order stand for. -/
def bytesToNat : List (BitVec 8) → Nat
  | [] => 0
  | b :: bs => b.toNat + 256 * bytesToNat bs

/-- The word of its bytes. -/
def deserialise (W : Nat) (bytes : List (BitVec 8)) : Int := (BitVec.ofNat W (bytesToNat bytes)).toInt

/-- The listed cells as the host's (address, byte) pairs, byte k of cell a at a * ceil(W/8) + k, zero bytes left out
(log 16). -/
def Memory.toBytes (W : Nat) (m : Memory) : List Host.Cell :=
  m.flatMap fun c =>
    ((serialise W c.2).zipIdx.map fun (b, k) => (c.1 * wordBytes W + k, b)).filter fun x => x.2 ≠ 0

end Sys2Proof.Machine
end

