-- ==== Sys2Proof/Safety.lean ====
section
/-! DEFINITION. The terms claims use: the invariant of the block's states, runs, and the observation of a run (10_state.md R47). -/

namespace Sys2Proof.Machine

/-! ### The invariant of every state of a legal instance -/

/-- Every listed cell has an address below MEM_CAP and holds a word, and the listing is canonical (20_memory.md R50). -/
abbrev MemOk (s : State) : Prop :=
  s.mem.wf ∧ ∀ c ∈ s.mem, c.1 < s.params.memCap ∧ IsWord s.params.wordBits c.2

/-- Entries are words, no more of them than STACK_CAP, with no tag set unless DEBUG_RA_CHECK (10_state.md R24, R25, R29). -/
abbrev StackOk (s : State) : Prop :=
  (∀ e ∈ s.stack, IsWord s.params.wordBits e.word ∧ (e.tag = true → s.params.debugRaCheck = true)) ∧
    ∀ c ∈ s.params.stackCap, s.stack.length ≤ c

/-- Before START nothing has run: `ip` is 0, the stack is empty, nothing is delivered (10_state.md R26, R38). -/
abbrev ReadyOk (s : State) : Prop := s.runState = .ready → s.ip = 0 ∧ s.stack = [] ∧ s.output = []

/-- The fault record is all 0 unless FAULTED; then it names a condition of a dispatch step, its FAULT_IP is `ip`, its other
registers hold words, and FAULT_ADDR is 0 for every condition but AddressOutOfRange (10_state.md R34, 60_exceptions.md R180). -/
abbrev FaultOk (s : State) : Prop :=
  (s.runState ≠ .faulted → s.faultRecord = FaultRecord.clear) ∧
    (s.runState = .faulted →
      s.faultRecord.code ∈ ([1, 2, 3, 4, 6, 7, 8] : List (BitVec 4)) ∧ s.faultRecord.ip = s.ip ∧
        IsWord s.params.wordBits s.faultRecord.opcode ∧ IsWord s.params.wordBits s.faultRecord.addr ∧
        (s.faultRecord.code ≠ Condition.addressOutOfRange.code → s.faultRecord.addr = 0))

/-- LOAD_STATUS is 0 or 5 (10_state.md R35). -/
abbrev LoadStatusOk (s : State) : Prop := s.loadStatus = 0 ∨ s.loadStatus = Condition.programTooLarge.code

/-- The words a host move carries. -/
def HostMove.words : HostMove → List Int
  | .idle => []
  | .reset => []
  | .load image => image
  | .start => []

/-- Every image the host is about to load is "a finite sequence of words" (10_state.md R42). -/
abbrev HostOk (s : State) : Prop := ∀ m ∈ s.host, ∀ v ∈ m.words, IsWord s.params.wordBits v

/-- The invariant: a legal instance whose every register, cell and entry is in its range. -/
abbrev State.Inv (s : State) : Prop :=
  s.params.Legal ∧ IsWord s.params.wordBits s.ip ∧ MemOk s ∧ StackOk s ∧ ReadyOk s ∧ FaultOk s ∧ LoadStatusOk s ∧
    (∀ v ∈ s.output, IsWord s.params.wordBits v) ∧ HostOk s

/-! ### Runs -/

/-- No host command comes before the next dispatch step. -/
abbrev NoCommand (s : State) : Prop := s.host = [] ∨ ∃ rest, s.host = .idle :: rest

/-- `k` steps, stopping at a refusal. -/
def runFor : Nat → State → Result
  | 0, s => .next s
  | k + 1, s =>
    match step s with
    | .next t => runFor k t
    | .fault r => .fault r
    | .refused r => .refused r

/-- `t` is the state after `k` steps of the run that `s` is in, the run not having ended before ("the execution from a START
command until HALTED or FAULTED", 00_scope.md R13). -/
def InRun (s : State) (k : Nat) (t : State) : Prop :=
  runFor k s = .next t ∧ ∀ j < k, ∃ u, runFor j s = .next u ∧ u.runState = .running

/-- A run that never ends: RUNNING after every number of steps, so neither a block that is not started nor a run that RESET
ends (10_state.md R41, R47, 70_reset_and_hazards.md R225). -/
def RunsForever (s : State) : Prop := ∀ k, ∃ t, runFor k s = .next t ∧ t.runState = .running

/-- The terminal status of a run (10_state.md R47). -/
inductive TerminalStatus where
  | halted
  | faulted (record : FaultRecord)
  | runsForever
  deriving DecidableEq, Repr

/-- The terminal status a state shows, if the run has ended; no single state shows that a run goes on forever (10_state.md R47,
60_exceptions.md R190). -/
def State.terminal (s : State) : Option TerminalStatus :=
  match s.runState with
  | .ready => none
  | .running => none
  | .halted => some .halted
  | .faulted => some (.faulted s.faultRecord)

/-- The run that `s` is in has this terminal status (10_state.md R47). -/
def EndsWith (s : State) : TerminalStatus → Prop
  | .halted => ∃ k t, InRun s k t ∧ t.terminal = some .halted
  | .faulted record => ∃ k t, InRun s k t ∧ t.terminal = some (.faulted record)
  | .runsForever => RunsForever s

/-- The `n`-th word (from 0) delivered in the run that `s` is in is `w`. -/
def Delivers (s : State) (n : Nat) (w : Int) : Prop := ∃ k t, InRun s k t ∧ t.output[n]? = some w

/-- The observation of a run: the finite or infinite sequence of words delivered, as its word at each place and `none` past
its end, and the terminal status (10_state.md R47). It is no part of the machine's state. -/
structure Observation where
  emitted : Nat → Option Int
  terminal : TerminalStatus

/-- `o` is the observation of the run that `s` is in (10_state.md R47). Whether a run ends cannot be computed, so it is a relation.
A run that RESET ends has none of the three terminal statuses, so no observation (log 17). -/
def State.Observes (s : State) (o : Observation) : Prop :=
  s.runState = .running ∧ (∀ n w, o.emitted n = some w ↔ Delivers s n w) ∧ EndsWith s o.terminal

/-- What has been observed so far, at one state: the words delivered and the terminal status, `none` standing for "not yet ended"
(60_exceptions.md R190). -/
structure ObservedSoFar where
  emitted : List Int
  terminal : Option TerminalStatus
  deriving DecidableEq, Repr

/-- What the host has observed at a state. -/
def State.observe (s : State) : ObservedSoFar := { emitted := s.output, terminal := s.terminal }

end Sys2Proof.Machine
end

