-- ==== Sys2Proof/Certificates/Slice0/Obligations.lean ====
section
/-! DEFINITION. The statements for the provers. Each formalises what rules of spec/ say of the block; what the statements are
written in terms of, where it is not the model's own, is defined first from the spec's tables. -/

open Sys2Proof Sys2Proof.Machine

namespace Sys2Proof.Claims

/-- The state after a fatal condition raised in `s`: FAULTED, the record written, nothing else changed (60_exceptions.md R186). -/
def faultWith (s : State) (code : BitVec 4) (opcode addr : Int) : State :=
  { s with runState := .faulted, faultRecord := { code := code, ip := s.ip, opcode := opcode, addr := addr } }

/-- The state once the host's turn has passed without a command. -/
def afterIdle (s : State) : State := { s with host := s.host.tail }

/-- The block is about to take a dispatch step. -/
abbrev Dispatching (s : State) : Prop := s.params.Legal ∧ s.runState = .running ∧ NoCommand s

/-- "An address a is valid when 0 <= a < MEM_CAP, comparing the signed value of the word a" (20_memory.md R51). -/
abbrev Valid (s : State) (a : Int) : Prop := 0 ≤ a ∧ a < s.params.memCap

/-- The entries an opcode needs (10_state.md R30). -/
def needs : Opcode → Nat
  | .halt | .push | .jump | .call | .load => 0
  | .pop | .ret | .print | .store => 1
  | .add | .sub | .mul | .div | .jumpIfEqual | .jumpIfNotEqual | .jumpIfLessThan | .jumpIfGreaterThan
  | .jumpIfLessThanOrEqual | .jumpIfGreaterThanOrEqual => 2

/-- The entries an opcode pops (10_state.md R30). -/
def pops (p : Params) : Opcode → Nat
  | .halt | .push | .jump | .call | .load => 0
  | .print => if p.printConsumes then 1 else 0
  | .pop | .ret | .store => 1
  | .add | .sub | .mul | .div | .jumpIfEqual | .jumpIfNotEqual | .jumpIfLessThan | .jumpIfGreaterThan
  | .jumpIfLessThanOrEqual | .jumpIfGreaterThanOrEqual => 2

/-- The entries an opcode pushes (10_state.md R30). -/
def pushes : Opcode → Nat
  | .push | .call | .load | .add | .sub | .mul | .div => 1
  | .halt | .pop | .jump | .ret | .print | .store | .jumpIfEqual | .jumpIfNotEqual | .jumpIfLessThan | .jumpIfGreaterThan
  | .jumpIfLessThanOrEqual | .jumpIfGreaterThanOrEqual => 0

/-- The conditions an instruction's own rule raises, by code (60_exceptions.md R182). -/
def ownCodes : Opcode → List (BitVec 4)
  | .halt | .jump => []
  | .push | .call => [6]
  | .pop | .print => [2]
  | .add | .sub | .mul => [2, 7]
  | .div => [2, 3, 7]
  | .jumpIfEqual | .jumpIfNotEqual | .jumpIfLessThan | .jumpIfGreaterThan | .jumpIfLessThanOrEqual
  | .jumpIfGreaterThanOrEqual => [2]
  | .ret => [2, 8]
  | .store => [2, 4]
  | .load => [4, 6]

/-- `q` is the quotient of `b` by `a` rounded toward zero: |q| = floor(|b| / |a|), negative exactly when the signs differ and
|b| ≥ |a| (41_arithmetic.md R115). -/
abbrev TruncQuotient (q b a : Int) : Prop :=
  q.natAbs = b.natAbs / a.natAbs ∧ (q < 0 ↔ ((b < 0 ∧ 0 < a) ∨ (0 < b ∧ a < 0)) ∧ a.natAbs ≤ b.natAbs)

/-- The rule shared by Add, Sub and Mul (41_arithmetic.md R110 to R112, R114), for the instruction `i` with id `id` and the
mathematical operation `f` of b and a. -/
def ArithRule (i : Instr) (id : Int) (f : Int → Int → Int) : Prop :=
  encode i = [id] ∧ ∀ s : State, s.params.Legal →
    (s.stack.length < 2 → exec i s = .next (faultWith s 2 id 0)) ∧
    ∀ a b rest, s.stack = a :: b :: rest →
      (IsWord s.params.wordBits (f b.word a.word) →
        exec i s = .next { s with stack := { word := f b.word a.word, tag := false } :: rest, ip := s.ip + 1 }) ∧
      (¬ IsWord s.params.wordBits (f b.word a.word) → s.params.overflow = .wrap →
        ∃ v, IsWord s.params.wordBits v ∧ (2 ^ s.params.wordBits : Int) ∣ v - f b.word a.word ∧
          exec i s = .next { s with stack := { word := v, tag := false } :: rest, ip := s.ip + 1 }) ∧
      (¬ IsWord s.params.wordBits (f b.word a.word) → s.params.overflow = .fault →
        exec i s = .next (faultWith s 7 id 0))

/-- The rule shared by the six conditional jumps (42_control.md R131), for the instruction `i k` with id `id` and relation `rel`
between a and b. -/
def JumpRule (i : Int → Instr) (id : Int) (rel : Int → Int → Prop) : Prop :=
  ∀ (k : Int) (s : State), encode (i k) = [id, k] ∧
    (s.stack.length < 2 → exec (i k) s = .next (faultWith s 2 id 0)) ∧
    ∀ a b rest, s.stack = a :: b :: rest →
      (rel a.word b.word → exec (i k) s = .next { s with stack := rest, ip := k }) ∧
      (¬ rel a.word b.word → exec (i k) s = .next { s with stack := rest, ip := s.ip + 2 })

/-- One line of the priority list: does the condition hold, and the FAULT_CODE, FAULT_OPCODE and FAULT_ADDR it gives. -/
structure PriorityLine where
  holds : Bool
  code : BitVec 4
  opcode : Int
  addr : Int
  deriving DecidableEq, Repr

/-- The mathematical result of the arithmetic opcode with id `w`. -/
def arithResult (w : Int) (b a : Int) : Int :=
  if w = 3 then b + a else if w = 4 then b - a else if w = 5 then b * a else Int.tdiv b a

/-- How many entries the opcode with id `w` needs, by id (10_state.md R30). -/
def needsOfId (w : Int) : Nat :=
  if w ∈ ([3, 4, 5, 6, 8, 9, 10, 11, 12, 13] : List Int) then 2 else if w ∈ ([2, 15, 16, 17] : List Int) then 1 else 0

/-- The nine conditions of 60_exceptions.md R183 in its order, with what R180 records for each. Later lines are read only where
no earlier one holds, so the words they name have then been fetched. -/
def priorityList (s : State) : List PriorityLine :=
  let w := s.mem.read s.ip.toNat
  let k := s.mem.read (s.ip + 1).toNat
  let a := (s.stack.head?.map StackEntry.word).getD 0
  let b := (s.stack.tail.head?.map StackEntry.word).getD 0
  [ { holds := decide (¬ Valid s s.ip), code := 4, opcode := 0, addr := s.ip },
    { holds := decide (¬ (0 ≤ w ∧ w ≤ 18)), code := 1, opcode := w, addr := 0 },
    { holds := decide (w ∈ ([1, 7, 8, 9, 10, 11, 12, 13, 14, 17, 18] : List Int) ∧ ¬ Valid s (s.ip + 1)),
      code := 4, opcode := w, addr := s.ip + 1 },
    { holds := decide (s.stack.length < needsOfId w), code := 2, opcode := w, addr := 0 },
    { holds := decide (w = 15 ∧ s.params.debugRaCheck = true ∧ s.stack.head?.map StackEntry.tag = some false),
      code := 8, opcode := w, addr := 0 },
    { holds := decide (w = 6 ∧ a = 0), code := 3, opcode := w, addr := 0 },
    { holds := decide ((w = 17 ∨ w = 18) ∧ ¬ Valid s k), code := 4, opcode := w, addr := k },
    { holds := decide (w ∈ ([3, 4, 5, 6] : List Int) ∧ s.params.overflow = .fault ∧
        ¬ IsWord s.params.wordBits (arithResult w b a)), code := 7, opcode := w, addr := 0 },
    { holds := decide (w ∈ ([1, 14, 18] : List Int) ∧ s.params.stackCap = some s.stack.length),
      code := 6, opcode := w, addr := 0 } ]

/-- The next state of an arithmetic instruction of width 1: the two operands replaced by the signed value of `v`. -/
def replaceTwo (s : State) (rest : List StackEntry) (v : BitVec s.params.wordBits) : Result :=
  .next { s with stack := { word := v.toInt, tag := false } :: rest, ip := s.ip + 1 }

/-- The same state in an instance with another STACK_CAP. -/
def withStackCap (c : Option Nat) (s : State) : State := { s with params := { s.params with stackCap := c } }

end Sys2Proof.Claims

open Sys2Proof.Claims

/-! ### Reset and the invariant -/

/-- RESET in any state leaves the values of 10_state.md R38. -/
def Obligations.ResetCommandLeavesResetValues : Prop :=
  ∀ (s : State) (rest : List HostMove), s.params.Legal → s.host = .reset :: rest →
    ∃ t, step s = .next t ∧ t.ip = 0 ∧ t.stack = [] ∧ (∀ a, t.mem.read a = 0) ∧ t.runState = .ready ∧
      t.faultRecord = { code := 0, ip := 0, opcode := 0, addr := 0 } ∧ t.loadStatus = 0 ∧ t.output = []

/-- The invariant holds after reset, for every legal instance; `State.reset` is the reference instance's (log 2). -/
def Obligations.InvariantHoldsAtReset : Prop :=
  State.reset.Inv ∧ ∀ p : Params, p.Legal → (State.resetOf p).Inv

/-- Every step keeps the invariant: words stay words, memory stays canonical and below MEM_CAP, the stack within STACK_CAP, the
fault record as R34 and R180 say, LOAD_STATUS 0 or 5. -/
def Obligations.StepKeepsInvariant : Prop :=
  ∀ s t : State, s.Inv → step s = .next t → t.Inv

/-- A step of a legal instance always answers a next state, its parameters the same and one host move read: the model stops
nowhere (the model's own: log 2, log 4, log 6, log 7). -/
def Obligations.LegalInstanceAlwaysSteps : Prop :=
  ∀ s : State, s.params.Legal → ∃ t, step s = .next t ∧ t.params = s.params ∧ t.host = s.host.tail

/-- An instance with parameters R8 does not allow is refused: the model's choice (log 8), after 92_eei_decisions.md D6. -/
def Obligations.IllegalInstanceIsRefused : Prop :=
  ∀ s : State, ¬ s.params.Legal → step s = .refused .illegalParameters

/-! ### Encoding -/

/-- Words written out from 30_encoding.md R72 decode to their instructions. -/
def Obligations.WordsOfTheOpcodeMapDecode : Prop :=
  decode [0] = .ok (.halt, []) ∧ decode [1, -5, 9] = .ok (.push (-5), [9]) ∧ decode [4, 4] = .ok (.sub, [4]) ∧
    decode [0x0D, 20] = .ok (.jumpIfGreaterThanOrEqual 20, []) ∧ decode [0x10] = .ok (.print, []) ∧
    decode [0x12, 20, 7] = .ok (.load 20, [7]) ∧ decode [19, 0] = .error (.invalidOpcode 19) ∧
    decode [-1] = .error (.invalidOpcode (-1))

/-- The decoder is total: exactly the words 0 to 18 are opcodes, each of its own id. -/
def Obligations.DecoderAcceptsExactlyTheMap : Prop :=
  ∀ w : Int, (0 ≤ w ∧ w ≤ 18 → ∃ op, decodeOpcode w = some op ∧ op.id = w) ∧ (¬ (0 ≤ w ∧ w ≤ 18) → decodeOpcode w = none)

/-- The assembler's laws: the image's length, and re-decoding gives back the program. -/
def Obligations.DisassemblingTheImageGivesTheProgram : Prop :=
  ∀ is : List Instr, (assemble is).length = (is.map fun i => 1 + i.opcode.arity).sum ∧ disassemble (assemble is) = .ok is

/-- Through the byte form of every cell and back no bit of a well-formed program is lost, at any word width. -/
def Obligations.ProgramSurvivesByteSerialisation : Prop :=
  ∀ (W : Nat) (is : List Instr), 8 ≤ W → ProgramWellFormed W is →
    disassemble ((assemble is).map fun v => deserialise W (serialise W v)) = .ok is

/-- The byte form of a word: ceil(W/8) bytes, byte k the k-th little-endian byte of the sign-extended word; and reading it back. -/
def Obligations.WordBytesAreLittleEndianSignExtended : Prop :=
  ∀ (W : Nat) (v : Int), 1 ≤ W → IsWord W v →
    (serialise W v).length = (W + 7) / 8 ∧
      (∀ k, k < (W + 7) / 8 → (serialise W v)[k]? = some (BitVec.ofInt 8 (v / 256 ^ k))) ∧
      deserialise W (serialise W v) = v

/-- In a state that meets the invariant every fetched instruction is well formed. -/
def Obligations.FetchedInstructionsAreWellFormed : Prop :=
  ∀ (s : State) (i : Instr), s.Inv → fetch s = .instr i → i.WellFormed s.params.wordBits

/-! ### The dispatch step -/

/-- When the cells at `ip` decode to an instruction, the step is that instruction's meaning. -/
def Obligations.StepRunsTheDecodedInstruction : Prop :=
  ∀ (s : State) (i : Instr) (rest : List Int), Dispatching s → decode (s.cellsFrom s.ip 2) = .ok (i, rest) →
    step s = exec i (afterIdle s)

/-- The dispatch step's pseudocode: the three checks of the fetch in their order, and the operand handed to the instruction. -/
def Obligations.DispatchStepFetchesAndChecks : Prop :=
  ∀ s : State, Dispatching s →
    (¬ Valid s s.ip → step s = .next (faultWith (afterIdle s) 4 0 s.ip)) ∧
    (Valid s s.ip →
      (¬ (0 ≤ s.mem.read s.ip.toNat ∧ s.mem.read s.ip.toNat ≤ 18) →
        step s = .next (faultWith (afterIdle s) 1 (s.mem.read s.ip.toNat) 0)) ∧
      ∀ op : Opcode, op.id = s.mem.read s.ip.toNat →
        (op.arity = 0 → step s = exec (op.instr 0) (afterIdle s)) ∧
        (op.arity = 1 → Valid s (s.ip + 1) →
          step s = exec (op.instr (s.mem.read (s.ip + 1).toNat)) (afterIdle s)) ∧
        (op.arity = 1 → s.ip = s.params.memCap - 1 → step s = .next (faultWith (afterIdle s) 4 op.id (s.ip + 1))))

/-- An advance by 1 or 2 from a valid `ip` stays within the word. -/
def Obligations.AdvanceCannotOverflowTheWord : Prop :=
  ∀ s : State, s.params.Legal → Valid s s.ip → IsWord s.params.wordBits (s.ip + 1) ∧ IsWord s.params.wordBits (s.ip + 2)

/-- A step reports the first condition of R183's list that holds, with R180's record, and faults only if one holds. -/
def Obligations.StepReportsTheFirstConditionOfThePriorityList : Prop :=
  ∀ s : State, Dispatching s → ∃ t, step s = .next t ∧
    match (priorityList s).find? PriorityLine.holds with
    | some c => t = faultWith (afterIdle s) c.code c.opcode c.addr
    | none => t.runState ≠ .faulted

/-- A zero cell halts the block. -/
def Obligations.ZeroCellHalts : Prop :=
  ∀ s : State, Dispatching s → Valid s s.ip → s.mem.read s.ip.toNat = 0 →
    step s = .next { afterIdle s with runState := .halted }

/-! ### The instructions -/

/-- Push (40_stack.md R100), with its corner case at the last cell. -/
def Obligations.PushFollowsItsRule : Prop :=
  (∀ s : State, Dispatching s → Valid s s.ip → s.ip = s.params.memCap - 1 → s.mem.read s.ip.toNat = 1 →
    step s = .next (faultWith (afterIdle s) 4 1 s.params.memCap)) ∧
  ∀ (k : Int) (s : State), encode (.push k) = [1, k] ∧
    (s.params.stackCap ≠ some s.stack.length →
      exec (.push k) s = .next { s with stack := { word := k, tag := false } :: s.stack, ip := s.ip + 2 }) ∧
    (s.params.stackCap = some s.stack.length → exec (.push k) s = .next (faultWith s 6 1 0))

/-- Pop (40_stack.md R101). -/
def Obligations.PopFollowsItsRule : Prop :=
  encode .pop = [2] ∧ ∀ s : State,
    (s.stack = [] → exec .pop s = .next (faultWith s 2 2 0)) ∧
    ∀ a rest, s.stack = a :: rest → exec .pop s = .next { s with stack := rest, ip := s.ip + 1 }

/-- Add, Sub and Mul (41_arithmetic.md R110 to R112) under both overflow policies (R114). -/
def Obligations.AddSubMulFollowTheirRules : Prop :=
  ArithRule .add 3 (fun b a => b + a) ∧ ArithRule .sub 4 (fun b a => b - a) ∧ ArithRule .mul 5 (fun b a => b * a)

/-- Div (41_arithmetic.md R113): zero divisor, truncation toward zero, and the one quotient outside the word range. -/
def Obligations.DivFollowsItsRule : Prop :=
  encode .div = [6] ∧ ∀ s : State, s.params.Legal →
    (s.stack.length < 2 → exec .div s = .next (faultWith s 2 6 0)) ∧
    ∀ a b rest, s.stack = a :: b :: rest →
      (a.word = 0 → exec .div s = .next (faultWith s 3 6 0)) ∧
      (a.word ≠ 0 → ∀ q, TruncQuotient q b.word a.word →
        (IsWord s.params.wordBits b.word → IsWord s.params.wordBits a.word → ¬ IsWord s.params.wordBits q →
          b.word = -(2 ^ (s.params.wordBits - 1) : Nat) ∧ a.word = -1) ∧
        (IsWord s.params.wordBits q →
          exec .div s = .next { s with stack := { word := q, tag := false } :: rest, ip := s.ip + 1 }) ∧
        (¬ IsWord s.params.wordBits q → s.params.overflow = .wrap →
          ∃ v, IsWord s.params.wordBits v ∧ (2 ^ s.params.wordBits : Int) ∣ v - q ∧
            exec .div s = .next { s with stack := { word := v, tag := false } :: rest, ip := s.ip + 1 }) ∧
        (¬ IsWord s.params.wordBits q → s.params.overflow = .fault → exec .div s = .next (faultWith s 7 6 0)))

/-- Truncating division at every sign combination, and its one quotient outside the word range (41_arithmetic.md R115). -/
def Obligations.DivisionTruncatesTowardZero : Prop :=
  (∀ b a : Int, a ≠ 0 → TruncQuotient (truncDiv b a) b a) ∧
    ∀ (W : Nat) (b a : Int), 1 ≤ W → IsWord W b → IsWord W a → a ≠ 0 →
      (¬ IsWord W (truncDiv b a) ↔ b = -(2 ^ (W - 1) : Nat) ∧ a = -1)

/-- `wrapW(x)` is the unique word congruent to x modulo 2^W (00_scope.md R11). -/
def Obligations.WrapIsTheUniqueCongruentWord : Prop :=
  ∀ (W : Nat) (x : Int), 1 ≤ W →
    IsWord W (wrapW W x) ∧ (2 ^ W : Int) ∣ wrapW W x - x ∧ ∀ y, IsWord W y → (2 ^ W : Int) ∣ y - x → y = wrapW W x

/-- Under `wrap` the arithmetic is that of a W-bit two's-complement adder, subtracter, multiplier and signed divider. -/
def Obligations.WrapArithmeticIsTwosComplement : Prop :=
  ∀ (s : State) (a b : StackEntry) (rest : List StackEntry), s.params.Legal → s.params.overflow = .wrap →
    s.stack = a :: b :: rest →
    exec .add s = replaceTwo s rest (BitVec.ofInt s.params.wordBits b.word + BitVec.ofInt s.params.wordBits a.word) ∧
    exec .sub s = replaceTwo s rest (BitVec.ofInt s.params.wordBits b.word - BitVec.ofInt s.params.wordBits a.word) ∧
    exec .mul s = replaceTwo s rest (BitVec.ofInt s.params.wordBits b.word * BitVec.ofInt s.params.wordBits a.word) ∧
    (IsWord s.params.wordBits a.word → IsWord s.params.wordBits b.word → a.word ≠ 0 →
      exec .div s =
        replaceTwo s rest ((BitVec.ofInt s.params.wordBits b.word).sdiv (BitVec.ofInt s.params.wordBits a.word)))

/-- Jump (42_control.md R130) completes in every state, whatever its target. -/
def Obligations.JumpFollowsItsRule : Prop :=
  ∀ (k : Int) (s : State), encode (.jump k) = [7, k] ∧ exec (.jump k) s = .next { s with ip := k }

/-- The six conditional jumps (42_control.md R131 to R137), `a` being the last value pushed. -/
def Obligations.ConditionalJumpsFollowTheirRules : Prop :=
  JumpRule .jumpIfEqual 8 (fun a b => a = b) ∧ JumpRule .jumpIfNotEqual 9 (fun a b => a ≠ b) ∧
    JumpRule .jumpIfLessThan 10 (fun a b => a < b) ∧ JumpRule .jumpIfGreaterThan 11 (fun a b => a > b) ∧
    JumpRule .jumpIfLessThanOrEqual 12 (fun a b => a ≤ b) ∧ JumpRule .jumpIfGreaterThanOrEqual 13 (fun a b => a ≥ b)

/-- Call (42_control.md R138). With DEBUG_RA_CHECK false the tag is held false (log 9). -/
def Obligations.CallFollowsItsRule : Prop :=
  ∀ (k : Int) (s : State), encode (.call k) = [14, k] ∧
    (s.params.stackCap ≠ some s.stack.length →
      exec (.call k) s =
        .next { s with stack := { word := s.ip + 2, tag := s.params.debugRaCheck } :: s.stack, ip := k }) ∧
    (s.params.stackCap = some s.stack.length → exec (.call k) s = .next (faultWith s 6 14 0))

/-- Return (42_control.md R139) under both values of DEBUG_RA_CHECK. -/
def Obligations.ReturnFollowsItsRule : Prop :=
  encode .ret = [15] ∧ ∀ s : State,
    (s.stack = [] → exec .ret s = .next (faultWith s 2 15 0)) ∧
    ∀ a rest, s.stack = a :: rest →
      (s.params.debugRaCheck = true → a.tag = false → exec .ret s = .next (faultWith s 8 15 0)) ∧
      (s.params.debugRaCheck = false ∨ a.tag = true → exec .ret s = .next { s with stack := rest, ip := a.word })

/-- Control resumes after the Call when Return finds the stack as the Call left it, under both values of DEBUG_RA_CHECK. -/
def Obligations.ReturnResumesAfterTheCall : Prop :=
  ∀ (k : Int) (s t u : State), s.params.stackCap ≠ some s.stack.length → exec (.call k) s = .next t →
    u.stack = t.stack → u.params = t.params → exec .ret u = .next { u with stack := s.stack, ip := s.ip + 2 }

/-- Print (43_print.md R150) under both values of PRINT_CONSUMES. -/
def Obligations.PrintFollowsItsRule : Prop :=
  encode .print = [16] ∧ ∀ s : State,
    (s.stack = [] → exec .print s = .next (faultWith s 2 16 0)) ∧
    ∀ a rest, s.stack = a :: rest →
      (s.params.printConsumes = false → exec .print s = .next { s with output := s.output ++ [a.word], ip := s.ip + 1 }) ∧
      (s.params.printConsumes = true →
        exec .print s = .next { s with output := s.output ++ [a.word], stack := rest, ip := s.ip + 1 })

/-- Store (44_load_store.md R160): cell k takes the value and every other cell reads as before; the underflow comes before the
address check. -/
def Obligations.StoreFollowsItsRule : Prop :=
  ∀ (k : Int) (s : State), encode (.store k) = [17, k] ∧
    (s.stack = [] → exec (.store k) s = .next (faultWith s 2 17 0)) ∧
    ∀ a rest, s.stack = a :: rest →
      (¬ Valid s k → exec (.store k) s = .next (faultWith s 4 17 k)) ∧
      (Valid s k → s.mem.wf →
        ∃ m : Memory, exec (.store k) s = .next { s with stack := rest, mem := m, ip := s.ip + 2 } ∧
          ∀ x : Nat, m.read x = if (x : Int) = k then a.word else s.mem.read x)

/-- Load (44_load_store.md R161): the address check comes before the overflow. -/
def Obligations.LoadFollowsItsRule : Prop :=
  ∀ (k : Int) (s : State), encode (.load k) = [18, k] ∧
    (¬ Valid s k → exec (.load k) s = .next (faultWith s 4 18 k)) ∧
    (Valid s k → s.params.stackCap = some s.stack.length → exec (.load k) s = .next (faultWith s 6 18 0)) ∧
    (Valid s k → s.params.stackCap ≠ some s.stack.length →
      exec (.load k) s =
        .next { s with stack := { word := s.mem.read k.toNat, tag := false } :: s.stack, ip := s.ip + 2 })

/-- Halt (45_halt.md R170) completes in every state and changes nothing but RUN_STATE. -/
def Obligations.HaltFollowsItsRule : Prop :=
  encode .halt = [0] ∧ ∀ s : State, exec .halt s = .next { s with runState := .halted }

/-- A target that is not valid is taken without a check and faults at the next fetch, with FAULT_IP and FAULT_ADDR the target. -/
def Obligations.InvalidTargetFaultsAtTheNextFetch : Prop :=
  ∀ (i : Instr) (s t : State), i.opcode ∈ ([.jump, .jumpIfEqual, .jumpIfNotEqual, .jumpIfLessThan, .jumpIfGreaterThan,
      .jumpIfLessThanOrEqual, .jumpIfGreaterThanOrEqual, .call, .ret] : List Opcode) →
    Dispatching s → exec i s = .next t → t.runState = .running → ¬ Valid t t.ip →
    ∃ u, step t = .next u ∧ u.runState = .faulted ∧ u.faultRecord = { code := 4, ip := t.ip, opcode := 0, addr := t.ip }

/-- A Store is seen by the very next fetch of the cell: the instruction after it is what it wrote. -/
def Obligations.StoreIsSeenByTheNextFetch : Prop :=
  ∀ (s t : State) (a : StackEntry) (rest : List StackEntry), Dispatching s → s.mem.wf → s.stack = a :: rest →
    Valid s (s.ip + 2) → exec (.store (s.ip + 2)) s = .next t →
    t.memRead (s.ip + 2) = some a.word ∧
      (¬ (0 ≤ a.word ∧ a.word ≤ 18) → step t = .next (faultWith (afterIdle t) 1 a.word 0)) ∧
      ∀ op : Opcode, op.id = a.word → op.arity = 0 → step t = exec (op.instr 0) (afterIdle t)

/-! ### Frames and whole-machine rules -/

/-- What no instruction changes, and what only some do: memory is Store's, the output port Print's, RUN_STATE Halt's and a fatal
condition's, the fault record a fatal condition's. -/
def Obligations.FrameOfEveryInstruction : Prop :=
  ∀ (i : Instr) (s t : State), exec i s = .next t →
    t.params = s.params ∧ t.host = s.host ∧ t.loadStatus = s.loadStatus ∧
    ((∀ k, i ≠ .store k) → ∀ x, t.mem.read x = s.mem.read x) ∧
    (i ≠ .print → t.output = s.output) ∧
    ((∃ c a, t = faultWith s c i.opcode.id a) ∨
      (t.faultRecord = s.faultRecord ∧ (i ≠ .halt → t.runState = s.runState)))

/-- Faults are precise: a step that ends FAULTED changes nothing but RUN_STATE and the fault record, whose FAULT_IP is `ip`. -/
def Obligations.FaultsArePrecise : Prop :=
  ∀ s t : State, Dispatching s → step s = .next t → t.runState = .faulted →
    t = faultWith (afterIdle s) t.faultRecord.code t.faultRecord.opcode t.faultRecord.addr ∧
      t.faultRecord.code ∈ ([1, 2, 3, 4, 6, 7, 8] : List (BitVec 4))

/-- Which instructions raise which conditions (60_exceptions.md R182). -/
def Obligations.InstructionsRaiseOnlyTheirConditions : Prop :=
  (∀ (i : Instr) (s t : State), s.runState ≠ .faulted → exec i s = .next t → t.runState = .faulted →
    t.faultRecord.code ∈ ownCodes i.opcode) ∧
  ∀ (op : Opcode) (c : BitVec 4), c ∈ ownCodes op → ∃ (s t : State) (k : Int), s.Inv ∧ s.runState = .running ∧
    exec (op.instr k) s = .next t ∧ t.runState = .faulted ∧ t.faultRecord.code = c

/-- Codes 6, 7 and 8 exist only for the parameter values that enable them (60_exceptions.md R181). -/
def Obligations.CodesSixToEightNeedTheirParameters : Prop :=
  ∀ s t : State, Dispatching s → step s = .next t → t.runState = .faulted →
    (t.faultRecord.code = 6 → ∃ c, s.params.stackCap = some c) ∧
    (t.faultRecord.code = 7 → s.params.overflow = .fault) ∧
    (t.faultRecord.code = 8 → s.params.debugRaCheck = true)

/-- The stack-effect table (10_state.md R30): what is needed, popped and pushed, and who may overflow. -/
def Obligations.StackEffectsFollowTheTable : Prop :=
  ∀ (i : Instr) (s t : State), s.runState ≠ .faulted → exec i s = .next t →
    (s.stack.length < needs i.opcode → t = faultWith s 2 i.opcode.id 0) ∧
    (t.runState ≠ .faulted → needs i.opcode ≤ s.stack.length ∧
      t.stack.length + pops s.params i.opcode = s.stack.length + pushes i.opcode ∧
      t.stack.drop (pushes i.opcode) = s.stack.drop (pops s.params i.opcode)) ∧
    (t.runState = .faulted → t.faultRecord.code = 6 →
      i.opcode ∈ ([.push, .call, .load] : List Opcode) ∧ s.params.stackCap = some s.stack.length)

/-- Only the top two entries are ever read: with deeper entries replaced by others, as many, an instruction does the same. -/
def Obligations.OnlyTheTopTwoEntriesAreRead : Prop :=
  ∀ (i : Instr) (s t : State) (a b : StackEntry) (deep deep' : List StackEntry), deep.length = deep'.length →
    exec i { s with stack := a :: b :: deep } = .next t →
    ∃ top, t.stack = top ++ deep ∧ exec i { s with stack := a :: b :: deep' } = .next { t with stack := top ++ deep' }

/-- What `ip` does (10_state.md R21). -/
def Obligations.InstructionPointerMovesByRule : Prop :=
  ∀ (i : Instr) (s t : State), s.runState ≠ .faulted → exec i s = .next t →
    (t.runState = .faulted ∨ i = .halt → t.ip = s.ip) ∧
    (t.runState ≠ .faulted →
      match i with
      | .halt => t.runState = .halted
      | .jump k => t.ip = k
      | .call k => t.ip = k
      | .ret => s.stack.head?.map StackEntry.word = some t.ip
      | .jumpIfEqual k | .jumpIfNotEqual k | .jumpIfLessThan k | .jumpIfGreaterThan k | .jumpIfLessThanOrEqual k
      | .jumpIfGreaterThanOrEqual k => t.ip = k ∨ t.ip = s.ip + 2
      | .push _ | .store _ | .load _ => t.ip = s.ip + 2
      | .pop | .add | .sub | .mul | .div | .print => t.ip = s.ip + 1)

/-- The transitions of RUN_STATE (10_state.md R33): where it goes from each state, and that a fetched Halt and a condition of R183's
list do end the run. -/
def Obligations.RunStateTransitions : Prop :=
  ∀ s t : State, step s = .next t →
    ((∃ rest, s.host = .reset :: rest) → t.runState = .ready) ∧
    ((∀ rest, s.host ≠ .reset :: rest) →
      match s.runState with
      | .ready => t.runState = if s.host.head? = some .start then .running else .ready
      | .running => t.runState ≠ .ready ∧ (t.runState = .halted ↔ NoCommand s ∧ fetch s = .instr .halt) ∧
          (t.runState = .faulted ↔ NoCommand s ∧ ∃ c ∈ priorityList s, c.holds = true) ∧
          (t.runState = .faulted → t.faultRecord.code ≠ 0)
      | .halted => t.runState = .halted
      | .faulted => t.runState = .faulted)

/-- HALTED and FAULTED end only by RESET: without it the whole state, the fault record included, stays. -/
def Obligations.StopStatesKeepEverythingUntilReset : Prop :=
  ∀ s : State, s.params.Legal → s.runState = .halted ∨ s.runState = .faulted → (∀ rest, s.host ≠ .reset :: rest) →
    step s = .next (afterIdle s)

/-- Each step's accesses: at most three, opcode fetch, operand fetch, data access, in that order, each at a valid address. -/
def Obligations.AccessesComeInTheArbitersOrder : Prop :=
  ∀ s : State, Dispatching s →
    (stepAccesses s).map Access.requester ∈ ([[], [.opcodeFetch], [.opcodeFetch, .operandFetch],
      [.opcodeFetch, .operandFetch, .loadRead], [.opcodeFetch, .operandFetch, .storeWrite]] : List (List Requester)) ∧
    ∀ x ∈ stepAccesses s, Valid s x.addr

/-- A cell changes only by an access that writes it, or by RESET; host LOADs included. -/
def Obligations.OnlyWritingAccessesChangeMemory : Prop :=
  ∀ s t : State, s.Inv → (∀ rest, s.host ≠ .reset :: rest) → step s = .next t →
    ∀ x : Nat, (∀ y ∈ stepAccesses s, y.writes = true → y.addr ≠ x) → t.mem.read x = s.mem.read x

/-- A dispatch step reads no cell but those of its reading accesses: with every other cell changed it answers the same state but
for memory, where the cells its accesses write hold what they did and every other cell is as it was. -/
def Obligations.StepReadsOnlyTheCellsItAccesses : Prop :=
  ∀ (s t : State) (m : Memory), Dispatching s → s.mem.wf → m.wf →
    (∀ x ∈ stepAccesses s, x.writes = false → m.read x.addr.toNat = s.mem.read x.addr.toNat) →
    step s = .next t → ∃ m', step { s with mem := m } = .next { t with mem := m' } ∧
      stepAccesses { s with mem := m } = stepAccesses s ∧
      ∀ x : Nat, ((∃ y ∈ stepAccesses s, y.writes = true ∧ y.addr = x) → m'.read x = t.mem.read x) ∧
        ((∀ y ∈ stepAccesses s, y.writes = true → y.addr ≠ x) → m'.read x = m.read x)

/-! ### The host interface -/

/-- LOAD (10_state.md R42) and ProgramTooLarge (60_exceptions.md R185). That outside READY the command is read and the step
answers the state otherwise unchanged is deduced (log 5), since R42 also says that the model gives it no move. -/
def Obligations.LoadCommandFollowsItsRule : Prop :=
  ∀ (s : State) (image : List Int) (rest : List HostMove), s.params.Legal → s.host = .load image :: rest →
    (s.runState ≠ .ready → step s = .next { s with host := rest }) ∧
    (s.runState = .ready → s.params.memCap < image.length → step s = .next { s with host := rest, loadStatus := 5 }) ∧
    (s.runState = .ready → image.length ≤ s.params.memCap → s.mem.wf →
      ∃ m : Memory, step s = .next { s with host := rest, mem := m, loadStatus := 0 } ∧
        ∀ x, m.read x = (image[x]?).getD (s.mem.read x))

/-- START (10_state.md R44). -/
def Obligations.StartCommandFollowsItsRule : Prop :=
  ∀ (s : State) (rest : List HostMove), s.params.Legal → s.host = .start :: rest →
    step s = .next { s with host := rest, runState := if s.runState = .ready then .running else s.runState }

/-- A host that gives no command leaves the block's step as it is: the model's own (log 4). -/
def Obligations.IdleHostDoesNotDisturbTheBlock : Prop :=
  ∀ (s : State) (rest : List HostMove), s.host = .idle :: rest →
    ∀ t, step { s with host := [] } = .next t → step s = .next { t with host := rest }

/-- The boot order: RESET, LOAD, START leave the block running at address 0 over the image and zero cells. -/
def Obligations.BootLeavesTheImageRunning : Prop :=
  ∀ (s : State) (image : List Int), s.params.Legal → image.length ≤ s.params.memCap →
    s.host = [.reset, .load image, .start] →
    ∃ t, runFor 3 s = .next t ∧ t.params = s.params ∧ t.runState = .running ∧ t.ip = 0 ∧ t.stack = [] ∧ t.output = [] ∧
      t.loadStatus = 0 ∧ t.faultRecord = FaultRecord.clear ∧ t.host = [] ∧ t.mem.wf ∧ ∀ x, t.mem.read x = (image[x]?).getD 0

/-- START without LOAD runs the zero memory (70_reset_and_hazards.md R213). -/
def Obligations.StartWithoutLoadHaltsOrFaults : Prop :=
  ∀ s : State, s.params.Legal → s.host = [.reset, .start] →
    ∃ t, runFor 3 s = .next t ∧ t.ip = 0 ∧ t.output = [] ∧
      (1 ≤ s.params.memCap → t.terminal = some .halted) ∧
      (s.params.memCap = 0 → t.terminal = some (.faulted { code := 4, ip := 0, opcode := 0, addr := 0 }))

/-- What the status port shows: the numbers of RUN_STATE (10_state.md R33), the fault record and LOAD_STATUS. -/
def Obligations.StatusPortShowsTheRegisters : Prop :=
  ∀ s : State,
    s.status.runState = (match s.runState with
      | .ready => 0
      | .running => 1
      | .halted => 2
      | .faulted => 3) ∧
    s.status.faultCode = s.faultRecord.code ∧ s.status.faultIp = s.faultRecord.ip ∧
    s.status.faultOpcode = s.faultRecord.opcode ∧ s.status.faultAddr = s.faultRecord.addr ∧
    s.status.loadStatus = s.loadStatus

/-! ### Runs -/

/-- A run's observation depends only on the parameters and what the memory holds at START: not on an earlier LOAD_STATUS or
fault record, nor on how the memory is held. -/
def Obligations.ObservationDependsOnlyOnParametersAndMemory : Prop :=
  ∀ (k : Nat) (s u : State), s.params.Legal → u.params = s.params → s.runState = .running → u.runState = .running →
    s.ip = 0 → u.ip = 0 → s.stack = [] → u.stack = [] → s.output = [] → u.output = [] → s.host = [] → u.host = [] →
    s.mem.wf → u.mem.wf → (∀ x, u.mem.read x = s.mem.read x) →
    ∃ t v, runFor k s = .next t ∧ runFor k u = .next v ∧ v.observe = t.observe

/-- Every run of a legal instance that no RESET ends has exactly one observation, and what any of its states shows is part of it.
That a run RESET ends has none is the model's reading (log 17). -/
def Obligations.EveryRunHasOneObservation : Prop :=
  ∀ s : State, s.params.Legal → s.runState = .running → .reset ∉ s.host →
    ∃ o, s.Observes o ∧ (∀ o', s.Observes o' → o' = o) ∧
      ∀ k t, runFor k s = .next t → (∀ n w, t.output[n]? = some w → o.emitted n = some w) ∧
        ∀ status, t.terminal = some status → o.terminal = status ∧ ∀ n, o.emitted n = t.output[n]?

/-- Equal contents are equal data: two canonical memories that read the same are the same list (log 3). -/
def Obligations.CanonicalMemoriesWithEqualCellsAreEqual : Prop :=
  ∀ m n : Memory, m.wf → n.wf → (∀ x, m.read x = n.read x) → m = n

/-- A run whose depth never exceeds a finite STACK_CAP goes as it does with an unbounded stack. -/
def Obligations.StackCapIsInvisibleWithinItsBound : Prop :=
  ∀ (c k : Nat) (s t : State), 1 ≤ c →
    (∀ j u, j ≤ k → runFor j (withStackCap none s) = .next u → u.stack.length ≤ c) →
    runFor k (withStackCap none s) = .next t → runFor k (withStackCap (some c) s) = .next (withStackCap (some c) t)

/-- A Jump to its own address loops forever with no output. -/
def Obligations.JumpToItselfRunsForever : Prop :=
  ∀ s : State, s.params.Legal → s.runState = .running → s.host = [] → Valid s s.ip → Valid s (s.ip + 1) →
    s.mem.read s.ip.toNat = 7 → s.mem.read (s.ip + 1).toNat = s.ip →
    RunsForever s ∧ (∀ k t, runFor k s = .next t → t.output = s.output) ∧
      s.Observes { emitted := fun n => s.output[n]?, terminal := .runsForever }

/-- Delivered words stay delivered: without RESET a step only appends to the output, one word for a Print and none otherwise. -/
def Obligations.OutputGrowsByOneWordPerPrint : Prop :=
  ∀ s t : State, (∀ rest, s.host ≠ .reset :: rest) → step s = .next t →
    t.output = s.output ∨ ∃ a rest, Dispatching s ∧ fetch s = .instr .print ∧ s.stack = a :: rest ∧
      t.output = s.output ++ [a.word]
end

