-- ==== Sys2Proof/Laws/Decode.lean ====
section
/-! SUPPORT. The laws of the decoder and the encoder. -/

namespace Sys2Proof

@[simp] theorem decodeOpcode_id (op : Opcode) : decodeOpcode op.id = some op := by cases op <;> rfl

/-- The decoder reads an opcode only from its own id. -/
theorem id_of_decodeOpcode {w : Int} {op : Opcode} (h : decodeOpcode w = some op) : op.id = w := by
  unfold decodeOpcode at h
  split at h <;> first | (cases h; rfl) | cases h

theorem decodeOpcode_eq_some {w : Int} {op : Opcode} : decodeOpcode w = some op ↔ w = op.id :=
  ⟨fun h => (id_of_decodeOpcode h).symm, fun h => by simp [h]⟩

theorem Opcode.id_nonneg (op : Opcode) : 0 ≤ op.id := by cases op <;> decide

theorem Opcode.id_le (op : Opcode) : op.id ≤ 18 := by cases op <;> decide

theorem Opcode.arity_le (op : Opcode) : op.arity ≤ 1 := by cases op <;> decide

/-- An opcode has an operand exactly when its instructions carry one. -/
theorem Instr.arity_eq (i : Instr) : i.opcode.arity = i.operand?.toList.length := by cases i <;> rfl

@[simp] theorem Opcode.opcode_instr (op : Opcode) (k : Int) : (op.instr k).opcode = op := by cases op <;> rfl

/-- Every instruction is its opcode's instruction with its operand. -/
theorem Instr.instr_opcode (i : Instr) : ∀ k ∈ i.operand?, i.opcode.instr k = i := by
  cases i <;> simp [Instr.operand?, Instr.opcode, Opcode.instr]

end Sys2Proof
end

