-- ==== Sys2Proof/Laws/State.lean ====
section
/-! SUPPORT. What each update of the state leaves in each field: one lemma per field per update, all by `rfl`. -/

namespace Sys2Proof.Machine

/-! ### `State.setIp` -/

@[simp] theorem State.setIp_params (s : State) (t : Int) :
    (s.setIp t).params = s.params := rfl

@[simp] theorem State.setIp_ip (s : State) (t : Int) :
    (s.setIp t).ip = t := rfl

@[simp] theorem State.setIp_stack (s : State) (t : Int) :
    (s.setIp t).stack = s.stack := rfl

@[simp] theorem State.setIp_mem (s : State) (t : Int) :
    (s.setIp t).mem = s.mem := rfl

@[simp] theorem State.setIp_runState (s : State) (t : Int) :
    (s.setIp t).runState = s.runState := rfl

@[simp] theorem State.setIp_faultRecord (s : State) (t : Int) :
    (s.setIp t).faultRecord = s.faultRecord := rfl

@[simp] theorem State.setIp_loadStatus (s : State) (t : Int) :
    (s.setIp t).loadStatus = s.loadStatus := rfl

@[simp] theorem State.setIp_output (s : State) (t : Int) :
    (s.setIp t).output = s.output := rfl

@[simp] theorem State.setIp_host (s : State) (t : Int) :
    (s.setIp t).host = s.host := rfl

@[simp] theorem State.setIp_memRead (s : State) (t : Int) (x : Int) :
    (s.setIp t).memRead x = s.memRead x := rfl

/-! ### `State.advance` -/

@[simp] theorem State.advance_params (s : State) (op : Opcode) :
    (s.advance op).params = s.params := rfl

@[simp] theorem State.advance_ip (s : State) (op : Opcode) :
    (s.advance op).ip = s.ip + op.width := rfl

@[simp] theorem State.advance_stack (s : State) (op : Opcode) :
    (s.advance op).stack = s.stack := rfl

@[simp] theorem State.advance_mem (s : State) (op : Opcode) :
    (s.advance op).mem = s.mem := rfl

@[simp] theorem State.advance_runState (s : State) (op : Opcode) :
    (s.advance op).runState = s.runState := rfl

@[simp] theorem State.advance_faultRecord (s : State) (op : Opcode) :
    (s.advance op).faultRecord = s.faultRecord := rfl

@[simp] theorem State.advance_loadStatus (s : State) (op : Opcode) :
    (s.advance op).loadStatus = s.loadStatus := rfl

@[simp] theorem State.advance_output (s : State) (op : Opcode) :
    (s.advance op).output = s.output := rfl

@[simp] theorem State.advance_host (s : State) (op : Opcode) :
    (s.advance op).host = s.host := rfl

@[simp] theorem State.advance_memRead (s : State) (op : Opcode) (x : Int) :
    (s.advance op).memRead x = s.memRead x := rfl

/-! ### `State.drop` -/

@[simp] theorem State.drop_params (s : State) (n : Nat) :
    (s.drop n).params = s.params := rfl

@[simp] theorem State.drop_ip (s : State) (n : Nat) :
    (s.drop n).ip = s.ip := rfl

@[simp] theorem State.drop_stack (s : State) (n : Nat) :
    (s.drop n).stack = s.stack.drop n := rfl

@[simp] theorem State.drop_mem (s : State) (n : Nat) :
    (s.drop n).mem = s.mem := rfl

@[simp] theorem State.drop_runState (s : State) (n : Nat) :
    (s.drop n).runState = s.runState := rfl

@[simp] theorem State.drop_faultRecord (s : State) (n : Nat) :
    (s.drop n).faultRecord = s.faultRecord := rfl

@[simp] theorem State.drop_loadStatus (s : State) (n : Nat) :
    (s.drop n).loadStatus = s.loadStatus := rfl

@[simp] theorem State.drop_output (s : State) (n : Nat) :
    (s.drop n).output = s.output := rfl

@[simp] theorem State.drop_host (s : State) (n : Nat) :
    (s.drop n).host = s.host := rfl

@[simp] theorem State.drop_memRead (s : State) (n : Nat) (x : Int) :
    (s.drop n).memRead x = s.memRead x := rfl

/-! ### `State.push` -/

@[simp] theorem State.push_params (s : State) (v : Int) :
    (s.push v).params = s.params := rfl

@[simp] theorem State.push_ip (s : State) (v : Int) :
    (s.push v).ip = s.ip := rfl

@[simp] theorem State.push_stack (s : State) (v : Int) :
    (s.push v).stack = { word := v, tag := false } :: s.stack := rfl

@[simp] theorem State.push_mem (s : State) (v : Int) :
    (s.push v).mem = s.mem := rfl

@[simp] theorem State.push_runState (s : State) (v : Int) :
    (s.push v).runState = s.runState := rfl

@[simp] theorem State.push_faultRecord (s : State) (v : Int) :
    (s.push v).faultRecord = s.faultRecord := rfl

@[simp] theorem State.push_loadStatus (s : State) (v : Int) :
    (s.push v).loadStatus = s.loadStatus := rfl

@[simp] theorem State.push_output (s : State) (v : Int) :
    (s.push v).output = s.output := rfl

@[simp] theorem State.push_host (s : State) (v : Int) :
    (s.push v).host = s.host := rfl

@[simp] theorem State.push_memRead (s : State) (v : Int) (x : Int) :
    (s.push v).memRead x = s.memRead x := rfl

/-! ### `State.pushReturn` -/

@[simp] theorem State.pushReturn_params (s : State) (v : Int) :
    (s.pushReturn v).params = s.params := rfl

@[simp] theorem State.pushReturn_ip (s : State) (v : Int) :
    (s.pushReturn v).ip = s.ip := rfl

@[simp] theorem State.pushReturn_stack (s : State) (v : Int) :
    (s.pushReturn v).stack = { word := v, tag := s.params.debugRaCheck } :: s.stack := rfl

@[simp] theorem State.pushReturn_mem (s : State) (v : Int) :
    (s.pushReturn v).mem = s.mem := rfl

@[simp] theorem State.pushReturn_runState (s : State) (v : Int) :
    (s.pushReturn v).runState = s.runState := rfl

@[simp] theorem State.pushReturn_faultRecord (s : State) (v : Int) :
    (s.pushReturn v).faultRecord = s.faultRecord := rfl

@[simp] theorem State.pushReturn_loadStatus (s : State) (v : Int) :
    (s.pushReturn v).loadStatus = s.loadStatus := rfl

@[simp] theorem State.pushReturn_output (s : State) (v : Int) :
    (s.pushReturn v).output = s.output := rfl

@[simp] theorem State.pushReturn_host (s : State) (v : Int) :
    (s.pushReturn v).host = s.host := rfl

@[simp] theorem State.pushReturn_memRead (s : State) (v : Int) (x : Int) :
    (s.pushReturn v).memRead x = s.memRead x := rfl

/-! ### `State.emit` -/

@[simp] theorem State.emit_params (s : State) (v : Int) :
    (s.emit v).params = s.params := rfl

@[simp] theorem State.emit_ip (s : State) (v : Int) :
    (s.emit v).ip = s.ip := rfl

@[simp] theorem State.emit_stack (s : State) (v : Int) :
    (s.emit v).stack = s.stack := rfl

@[simp] theorem State.emit_mem (s : State) (v : Int) :
    (s.emit v).mem = s.mem := rfl

@[simp] theorem State.emit_runState (s : State) (v : Int) :
    (s.emit v).runState = s.runState := rfl

@[simp] theorem State.emit_faultRecord (s : State) (v : Int) :
    (s.emit v).faultRecord = s.faultRecord := rfl

@[simp] theorem State.emit_loadStatus (s : State) (v : Int) :
    (s.emit v).loadStatus = s.loadStatus := rfl

@[simp] theorem State.emit_output (s : State) (v : Int) :
    (s.emit v).output = s.output ++ [v] := rfl

@[simp] theorem State.emit_host (s : State) (v : Int) :
    (s.emit v).host = s.host := rfl

@[simp] theorem State.emit_memRead (s : State) (v : Int) (x : Int) :
    (s.emit v).memRead x = s.memRead x := rfl

/-! ### `State.halt` -/

@[simp] theorem State.halt_params (s : State) :
    (s.halt).params = s.params := rfl

@[simp] theorem State.halt_ip (s : State) :
    (s.halt).ip = s.ip := rfl

@[simp] theorem State.halt_stack (s : State) :
    (s.halt).stack = s.stack := rfl

@[simp] theorem State.halt_mem (s : State) :
    (s.halt).mem = s.mem := rfl

@[simp] theorem State.halt_runState (s : State) :
    (s.halt).runState = .halted := rfl

@[simp] theorem State.halt_faultRecord (s : State) :
    (s.halt).faultRecord = s.faultRecord := rfl

@[simp] theorem State.halt_loadStatus (s : State) :
    (s.halt).loadStatus = s.loadStatus := rfl

@[simp] theorem State.halt_output (s : State) :
    (s.halt).output = s.output := rfl

@[simp] theorem State.halt_host (s : State) :
    (s.halt).host = s.host := rfl

@[simp] theorem State.halt_memRead (s : State) (x : Int) :
    (s.halt).memRead x = s.memRead x := rfl

/-! ### `State.memWrite` -/

@[simp] theorem State.memWrite_params (s : State) (a v : Int) :
    (s.memWrite a v).params = s.params := rfl

@[simp] theorem State.memWrite_ip (s : State) (a v : Int) :
    (s.memWrite a v).ip = s.ip := rfl

@[simp] theorem State.memWrite_stack (s : State) (a v : Int) :
    (s.memWrite a v).stack = s.stack := rfl

@[simp] theorem State.memWrite_mem (s : State) (a v : Int) :
    (s.memWrite a v).mem = s.mem.write a.toNat v := rfl

@[simp] theorem State.memWrite_runState (s : State) (a v : Int) :
    (s.memWrite a v).runState = s.runState := rfl

@[simp] theorem State.memWrite_faultRecord (s : State) (a v : Int) :
    (s.memWrite a v).faultRecord = s.faultRecord := rfl

@[simp] theorem State.memWrite_loadStatus (s : State) (a v : Int) :
    (s.memWrite a v).loadStatus = s.loadStatus := rfl

@[simp] theorem State.memWrite_output (s : State) (a v : Int) :
    (s.memWrite a v).output = s.output := rfl

@[simp] theorem State.memWrite_host (s : State) (a v : Int) :
    (s.memWrite a v).host = s.host := rfl

/-! ### `State.enterFault` -/

@[simp] theorem State.enterFault_params (s : State) (c : Condition) (opcode addr : Int) :
    (s.enterFault c opcode addr).params = s.params := rfl

@[simp] theorem State.enterFault_ip (s : State) (c : Condition) (opcode addr : Int) :
    (s.enterFault c opcode addr).ip = s.ip := rfl

@[simp] theorem State.enterFault_stack (s : State) (c : Condition) (opcode addr : Int) :
    (s.enterFault c opcode addr).stack = s.stack := rfl

@[simp] theorem State.enterFault_mem (s : State) (c : Condition) (opcode addr : Int) :
    (s.enterFault c opcode addr).mem = s.mem := rfl

@[simp] theorem State.enterFault_runState (s : State) (c : Condition) (opcode addr : Int) :
    (s.enterFault c opcode addr).runState = .faulted := rfl

@[simp] theorem State.enterFault_faultRecord (s : State) (c : Condition) (opcode addr : Int) :
    (s.enterFault c opcode addr).faultRecord = { code := c.code, ip := s.ip, opcode := opcode, addr := addr } := rfl

@[simp] theorem State.enterFault_loadStatus (s : State) (c : Condition) (opcode addr : Int) :
    (s.enterFault c opcode addr).loadStatus = s.loadStatus := rfl

@[simp] theorem State.enterFault_output (s : State) (c : Condition) (opcode addr : Int) :
    (s.enterFault c opcode addr).output = s.output := rfl

@[simp] theorem State.enterFault_host (s : State) (c : Condition) (opcode addr : Int) :
    (s.enterFault c opcode addr).host = s.host := rfl

@[simp] theorem State.enterFault_memRead (s : State) (c : Condition) (opcode addr : Int) (x : Int) :
    (s.enterFault c opcode addr).memRead x = s.memRead x := rfl

/-! ### `State.setRunning` -/

@[simp] theorem State.setRunning_params (s : State) :
    (s.setRunning).params = s.params := rfl

@[simp] theorem State.setRunning_ip (s : State) :
    (s.setRunning).ip = s.ip := rfl

@[simp] theorem State.setRunning_stack (s : State) :
    (s.setRunning).stack = s.stack := rfl

@[simp] theorem State.setRunning_mem (s : State) :
    (s.setRunning).mem = s.mem := rfl

@[simp] theorem State.setRunning_runState (s : State) :
    (s.setRunning).runState = .running := rfl

@[simp] theorem State.setRunning_faultRecord (s : State) :
    (s.setRunning).faultRecord = s.faultRecord := rfl

@[simp] theorem State.setRunning_loadStatus (s : State) :
    (s.setRunning).loadStatus = s.loadStatus := rfl

@[simp] theorem State.setRunning_output (s : State) :
    (s.setRunning).output = s.output := rfl

@[simp] theorem State.setRunning_host (s : State) :
    (s.setRunning).host = [] := rfl

@[simp] theorem State.setRunning_memRead (s : State) (x : Int) :
    (s.setRunning).memRead x = s.memRead x := rfl

end Sys2Proof.Machine
end

