-- ==== Sys2Proof/Laws/Ops.lean ====
section
/-! SUPPORT. What each shared operation can do, said once: its value on each form of its input, and the inversion of a next
state. -/

namespace Sys2Proof.Machine

variable {s t : State} {op : Opcode} {k : Int}

theorem validAddr_iff {p : Params} {a : Int} : validAddr p a = true ↔ 0 ≤ a ∧ a < p.memCap := by
  simp [validAddr]

theorem memRead_eq_some {a v : Int} : s.memRead a = some v ↔ validAddr s.params a = true ∧ s.mem.read a.toNat = v := by
  simp [State.memRead]

theorem memRead_eq_none {a : Int} : s.memRead a = none ↔ validAddr s.params a = false := by
  simp [State.memRead]

theorem raise_eq_next {c : Condition} {o a : Int} : raise c o a s = .next t ↔ t = s.enterFault c o a := by
  simp [raise, eq_comm]

theorem needOne_nil (h : s.stack = []) (body : StackEntry → Result) :
    needOne op s body = raise .stackUnderflow op.id 0 s := by simp [needOne, h]

theorem needOne_cons {a : StackEntry} {rest : List StackEntry} (h : s.stack = a :: rest) (body : StackEntry → Result) :
    needOne op s body = body a := by simp [needOne, h]

/-- What `needOne` can do. -/
theorem needOne_cases {body : StackEntry → Result} (h : needOne op s body = .next t) :
    (s.stack = [] ∧ t = s.enterFault .stackUnderflow op.id 0) ∨ ∃ a rest, s.stack = a :: rest ∧ body a = .next t := by
  cases hs : s.stack with
  | nil => exact .inl ⟨rfl, raise_eq_next.1 (needOne_nil hs body ▸ h)⟩
  | cons a rest => exact .inr ⟨a, rest, rfl, needOne_cons hs body ▸ h⟩

theorem needTwo_short (h : s.stack.length < 2) (body : Int → Int → Result) :
    needTwo op s body = raise .stackUnderflow op.id 0 s := by
  match hs : s.stack with
  | [] => simp [needTwo, hs]
  | [_] => simp [needTwo, hs]
  | _ :: _ :: _ => simp [hs] at h

theorem needTwo_cons {a b : StackEntry} {rest : List StackEntry} (h : s.stack = a :: b :: rest)
    (body : Int → Int → Result) : needTwo op s body = body a.word b.word := by simp [needTwo, h]

/-- What `needTwo` can do. -/
theorem needTwo_cases {body : Int → Int → Result} (h : needTwo op s body = .next t) :
    (s.stack.length < 2 ∧ t = s.enterFault .stackUnderflow op.id 0) ∨
      ∃ a b rest, s.stack = a :: b :: rest ∧ body a.word b.word = .next t := by
  match hs : s.stack with
  | [] =>
    rw [needTwo_short (by simp [hs])] at h
    exact .inl ⟨by simp, raise_eq_next.1 h⟩
  | [a] =>
    rw [needTwo_short (by simp [hs])] at h
    exact .inl ⟨by simp, raise_eq_next.1 h⟩
  | a :: b :: rest => exact .inr ⟨a, b, rest, rfl, needTwo_cons hs body ▸ h⟩

@[simp] theorem stackFull_iff : s.stackFull = true ↔ s.params.stackCap = some s.stack.length := by
  simp [State.stackFull, State.depth]

/-- What `needRoom` can do. -/
theorem needRoom_cases {body : Result} (h : needRoom op s body = .next t) :
    (s.params.stackCap = some s.stack.length ∧ t = s.enterFault .stackOverflow op.id 0) ∨
      (s.params.stackCap ≠ some s.stack.length ∧ body = .next t) := by
  unfold needRoom at h
  split at h
  · exact .inl ⟨stackFull_iff.1 ‹_›, raise_eq_next.1 h⟩
  · exact .inr ⟨fun e => ‹¬_› (stackFull_iff.2 e), h⟩

/-- What `needAddr` can do. -/
theorem needAddr_cases {body : Result} (h : needAddr op k s body = .next t) :
    (validAddr s.params k = false ∧ t = s.enterFault .addressOutOfRange op.id k) ∨
      (validAddr s.params k = true ∧ body = .next t) := by
  unfold needAddr at h
  split at h
  · exact .inr ⟨‹_›, h⟩
  · exact .inl ⟨by simpa using ‹¬ validAddr s.params k = true›, raise_eq_next.1 h⟩

theorem overflows_iff {W : Nat} {x : Int} : overflows W x = true ↔ ¬ IsWord W x := by
  rw [overflows, Bool.not_eq_true', decide_eq_false_iff_not]

/-- What `finishArith` can do. -/
theorem finishArith_cases {x : Int} (h : finishArith op x s = .next t) :
    (¬ IsWord s.params.wordBits x ∧ s.params.overflow = .fault ∧ t = s.enterFault .arithmeticOverflow op.id 0) ∨
      ((IsWord s.params.wordBits x ∨ s.params.overflow = .wrap) ∧
        t = ((s.drop 2).push (wrapW s.params.wordBits x)).advance op) := by
  unfold finishArith at h
  split at h
  · rename_i hc
    rw [Bool.and_eq_true, overflows_iff, beq_iff_eq] at hc
    exact .inl ⟨hc.1, hc.2, raise_eq_next.1 h⟩
  · rename_i hc
    rw [Bool.and_eq_true, overflows_iff, beq_iff_eq] at hc
    refine .inr ⟨?_, (Host.Outcome.next.inj h).symm⟩
    cases hp : s.params.overflow
    · exact .inr rfl
    · by_cases hx : IsWord s.params.wordBits x
      · exact .inl hx
      · exact absurd ⟨hx, hp⟩ hc

/-- What a conditional jump can do. -/
theorem jumpIf_cases {r : Comparison} (h : jumpIf op r k s = .next t) :
    (s.stack.length < 2 ∧ t = s.enterFault .stackUnderflow op.id 0) ∨
      ∃ a b rest, s.stack = a :: b :: rest ∧
        t = if r.holds a.word b.word then (s.drop 2).setIp k else (s.drop 2).advance op := by
  rcases needTwo_cases h with h | ⟨a, b, rest, hs, h⟩
  · exact .inl h
  · exact .inr ⟨a, b, rest, hs, (Host.Outcome.next.inj h).symm⟩

/-- What the fetch can end in (30_encoding.md R76). -/
theorem fetch_cases (s : State) :
    (validAddr s.params s.ip = false ∧ fetch s = .raised .addressOutOfRange 0 s.ip) ∨
      ∃ w, s.memRead s.ip = some w ∧
        ((decodeOpcode w = none ∧ fetch s = .raised .invalidOpcode w 0) ∨
          ∃ op, decodeOpcode w = some op ∧
            ((op.arity = 0 ∧ fetch s = .instr (op.instr 0)) ∨
              (op.arity ≠ 0 ∧ validAddr s.params (s.ip + 1) = false ∧
                fetch s = .raised .addressOutOfRange w (s.ip + 1)) ∨
              (op.arity ≠ 0 ∧ ∃ k, s.memRead (s.ip + 1) = some k ∧ fetch s = .instr (op.instr k)))) := by
  cases hw : s.memRead s.ip with
  | none => exact .inl ⟨memRead_eq_none.1 hw, by simp [fetch, hw]⟩
  | some w =>
    refine .inr ⟨w, rfl, ?_⟩
    cases ho : decodeOpcode w with
    | none => exact .inl ⟨rfl, by simp [fetch, hw, ho]⟩
    | some op =>
      refine .inr ⟨op, rfl, ?_⟩
      by_cases ha : op.arity = 0
      · exact .inl ⟨ha, by simp [fetch, hw, ho, ha]⟩
      · cases hk : s.memRead (s.ip + 1) with
        | none => exact .inr (.inl ⟨ha, memRead_eq_none.1 hk, by simp [fetch, hw, ho, ha, hk]⟩)
        | some k => exact .inr (.inr ⟨ha, k, rfl, by simp [fetch, hw, ho, ha, hk]⟩)

@[simp] theorem runFetched_instr (i : Instr) : runFetched s (.instr i) = exec i s := rfl

@[simp] theorem runFetched_raised (c : Condition) (o a : Int) :
    runFetched s (.raised c o a) = .next (s.enterFault c o a) := rfl

/-- A dispatch step in RUNNING. -/
theorem dispatchStep_running (h : s.runState = .running) : dispatchStep s = runFetched s (fetch s) := by
  simp only [dispatchStep, h]

/-- A step of a legal instance is the host's move. -/
theorem step_of_legal (h : s.params.Legal) : step s = hostStep s := if_pos h

end Sys2Proof.Machine
end

