-- ==== Sys2Proof/Laws/Exec.lean ====
section
/-! SUPPORT. What `exec` can answer, said once: always a next state, and which. -/

namespace Sys2Proof.Machine

variable {s t : State} {k : Int}

/-! ### Each meaning over its shared operations -/

theorem exec_halt : exec .halt s = .next s.halt := rfl

theorem exec_push : exec (.push k) s = needRoom .push s (.next ((s.push k).advance .push)) := rfl

theorem exec_pop : exec .pop s = needOne .pop s fun _ => .next ((s.drop 1).advance .pop) := rfl

theorem exec_add : exec .add s = needTwo .add s fun a b => finishArith .add (b + a) s := rfl

theorem exec_sub : exec .sub s = needTwo .sub s fun a b => finishArith .sub (b - a) s := rfl

theorem exec_mul : exec .mul s = needTwo .mul s fun a b => finishArith .mul (b * a) s := rfl

theorem exec_div : exec .div s = needTwo .div s fun a b =>
    if a = 0 then raise .divisionByZero Opcode.div.id 0 s else finishArith .div (truncDiv b a) s := rfl

theorem exec_jump : exec (.jump k) s = .next (s.setIp k) := rfl

theorem exec_jumpIfEqual : exec (.jumpIfEqual k) s = jumpIf .jumpIfEqual .equal k s := rfl

theorem exec_jumpIfNotEqual : exec (.jumpIfNotEqual k) s = jumpIf .jumpIfNotEqual .notEqual k s := rfl

theorem exec_jumpIfLessThan : exec (.jumpIfLessThan k) s = jumpIf .jumpIfLessThan .lessThan k s := rfl

theorem exec_jumpIfGreaterThan : exec (.jumpIfGreaterThan k) s = jumpIf .jumpIfGreaterThan .greaterThan k s := rfl

theorem exec_jumpIfLessThanOrEqual :
    exec (.jumpIfLessThanOrEqual k) s = jumpIf .jumpIfLessThanOrEqual .lessThanOrEqual k s := rfl

theorem exec_jumpIfGreaterThanOrEqual :
    exec (.jumpIfGreaterThanOrEqual k) s = jumpIf .jumpIfGreaterThanOrEqual .greaterThanOrEqual k s := rfl

theorem exec_call : exec (.call k) s = needRoom .call s (.next ((s.pushReturn (s.ip + 2)).setIp k)) := rfl

theorem exec_ret : exec .ret s = needOne .ret s fun a =>
    if s.params.debugRaCheck && !a.tag then raise .badReturnAddress Opcode.ret.id 0 s
    else .next ((s.drop 1).setIp a.word) := rfl

theorem exec_print : exec .print s = needOne .print s fun a =>
    .next ((if s.params.printConsumes then (s.emit a.word).drop 1 else s.emit a.word).advance .print) := rfl

theorem exec_store : exec (.store k) s = needOne .store s fun a =>
    needAddr .store k s (.next (((s.drop 1).memWrite k a.word).advance .store)) := rfl

theorem exec_load : exec (.load k) s = match s.memRead k with
    | none => raise .addressOutOfRange Opcode.load.id k s
    | some v => needRoom .load s (.next ((s.push v).advance .load)) := rfl

/-! ### Every meaning answers a next state -/

theorem needOne_isNext {op : Opcode} {body : StackEntry → Result} (h : ∀ a, ∃ t, body a = .next t) :
    ∃ t, needOne op s body = .next t := by
  cases hs : s.stack with
  | nil => exact ⟨_, by rw [needOne_nil hs]; rfl⟩
  | cons a rest => simpa only [needOne_cons hs] using h a

theorem needTwo_isNext {op : Opcode} {body : Int → Int → Result} (h : ∀ a b, ∃ t, body a b = .next t) :
    ∃ t, needTwo op s body = .next t := by
  match hs : s.stack with
  | [] => exact ⟨_, by rw [needTwo_short (by simp [hs])]; rfl⟩
  | [_] => exact ⟨_, by rw [needTwo_short (by simp [hs])]; rfl⟩
  | a :: b :: rest => simpa only [needTwo_cons hs] using h a.word b.word

theorem ite_isNext {c : Prop} [Decidable c] {x y : Result} (hx : ∃ t, x = .next t) (hy : ∃ t, y = .next t) :
    ∃ t, (if c then x else y) = .next t := by
  split <;> assumption

theorem raise_isNext (c : Condition) (o a : Int) : ∃ t, raise c o a s = .next t := ⟨_, rfl⟩

theorem finishArith_isNext (op : Opcode) (x : Int) : ∃ t, finishArith op x s = .next t :=
  ite_isNext (raise_isNext _ _ _) ⟨_, rfl⟩

theorem jumpIf_isNext (op : Opcode) (r : Comparison) (k : Int) : ∃ t, jumpIf op r k s = .next t :=
  needTwo_isNext fun _ _ => ⟨_, rfl⟩

theorem execAdd_isNext (s : State) : ∃ t, execAdd s = .next t := needTwo_isNext fun _ _ => finishArith_isNext _ _

theorem execSub_isNext (s : State) : ∃ t, execSub s = .next t := needTwo_isNext fun _ _ => finishArith_isNext _ _

theorem execMul_isNext (s : State) : ∃ t, execMul s = .next t := needTwo_isNext fun _ _ => finishArith_isNext _ _

theorem execDiv_isNext (s : State) : ∃ t, execDiv s = .next t :=
  needTwo_isNext fun _ _ => ite_isNext (raise_isNext _ _ _) (finishArith_isNext _ _)

theorem execRet_isNext (s : State) : ∃ t, execRet s = .next t :=
  needOne_isNext fun _ => ite_isNext (raise_isNext _ _ _) ⟨_, rfl⟩

theorem execPrint_isNext (s : State) : ∃ t, execPrint s = .next t := needOne_isNext fun _ => ⟨_, rfl⟩

theorem execStore_isNext (k : Int) (s : State) : ∃ t, execStore k s = .next t :=
  needOne_isNext fun _ => ite_isNext ⟨_, rfl⟩ (raise_isNext _ _ _)

theorem execLoad_isNext (k : Int) (s : State) : ∃ t, execLoad k s = .next t := by
  unfold execLoad
  split
  · exact raise_isNext _ _ _
  · exact ite_isNext (raise_isNext _ _ _) ⟨_, rfl⟩

/-- Every instruction answers a next state in every state: a fatal condition is a next state too (60_exceptions.md R186). -/
theorem exec_isNext (i : Instr) (s : State) : ∃ t, exec i s = .next t := by
  cases i with
  | halt => exact ⟨_, rfl⟩
  | push k => exact ite_isNext (raise_isNext _ _ _) ⟨_, rfl⟩
  | pop => exact needOne_isNext fun _ => ⟨_, rfl⟩
  | add => exact execAdd_isNext s
  | sub => exact execSub_isNext s
  | mul => exact execMul_isNext s
  | div => exact execDiv_isNext s
  | jump k => exact ⟨_, rfl⟩
  | jumpIfEqual k => exact jumpIf_isNext _ _ k
  | jumpIfNotEqual k => exact jumpIf_isNext _ _ k
  | jumpIfLessThan k => exact jumpIf_isNext _ _ k
  | jumpIfGreaterThan k => exact jumpIf_isNext _ _ k
  | jumpIfLessThanOrEqual k => exact jumpIf_isNext _ _ k
  | jumpIfGreaterThanOrEqual k => exact jumpIf_isNext _ _ k
  | call k => exact ite_isNext (raise_isNext _ _ _) ⟨_, rfl⟩
  | ret => exact execRet_isNext s
  | print => exact execPrint_isNext s
  | store k => exact execStore_isNext k s
  | load k => exact execLoad_isNext k s

/-! ### The inversion of `exec` -/

/-- The stack has two entries and `x` is `f` of b and a. -/
def TwoOn (s : State) (f : Int → Int → Int) (x : Int) : Prop :=
  ∃ a b rest, s.stack = a :: b :: rest ∧ x = f b.word a.word

/-- How an arithmetic instruction with result `x` completes. -/
def CompletesArith (op : Opcode) (f : Int → Int → Int) (s t : State) : Prop :=
  ∃ x, TwoOn s f x ∧ (IsWord s.params.wordBits x ∨ s.params.overflow = .wrap) ∧
    t = ((s.drop 2).push (wrapW s.params.wordBits x)).advance op

/-- How a conditional jump completes. -/
def CompletesJump (op : Opcode) (r : Comparison) (k : Int) (s t : State) : Prop :=
  ∃ a b rest, s.stack = a :: b :: rest ∧
    t = if r.holds a.word b.word then (s.drop 2).setIp k else (s.drop 2).advance op

/-- The next state of an instruction that completes. -/
def Completes (i : Instr) (s t : State) : Prop :=
  match i with
  | .halt => t = s.halt
  | .push k => s.params.stackCap ≠ some s.stack.length ∧ t = (s.push k).advance .push
  | .pop => (∃ a rest, s.stack = a :: rest) ∧ t = (s.drop 1).advance .pop
  | .add => CompletesArith .add (fun b a => b + a) s t
  | .sub => CompletesArith .sub (fun b a => b - a) s t
  | .mul => CompletesArith .mul (fun b a => b * a) s t
  | .div => (∀ a rest, s.stack = a :: rest → a.word ≠ 0) ∧ CompletesArith .div truncDiv s t
  | .jump k => t = s.setIp k
  | .jumpIfEqual k => CompletesJump .jumpIfEqual .equal k s t
  | .jumpIfNotEqual k => CompletesJump .jumpIfNotEqual .notEqual k s t
  | .jumpIfLessThan k => CompletesJump .jumpIfLessThan .lessThan k s t
  | .jumpIfGreaterThan k => CompletesJump .jumpIfGreaterThan .greaterThan k s t
  | .jumpIfLessThanOrEqual k => CompletesJump .jumpIfLessThanOrEqual .lessThanOrEqual k s t
  | .jumpIfGreaterThanOrEqual k => CompletesJump .jumpIfGreaterThanOrEqual .greaterThanOrEqual k s t
  | .call k => s.params.stackCap ≠ some s.stack.length ∧ t = (s.pushReturn (s.ip + 2)).setIp k
  | .ret => ∃ a rest, s.stack = a :: rest ∧ (s.params.debugRaCheck = true → a.tag = true) ∧ t = (s.drop 1).setIp a.word
  | .print => ∃ a rest, s.stack = a :: rest ∧
      t = (if s.params.printConsumes then (s.emit a.word).drop 1 else s.emit a.word).advance .print
  | .store k => ∃ a rest, s.stack = a :: rest ∧ validAddr s.params k = true ∧
      t = ((s.drop 1).memWrite k a.word).advance .store
  | .load k => validAddr s.params k = true ∧ s.params.stackCap ≠ some s.stack.length ∧
      t = (s.push (s.mem.read k.toNat)).advance .load

/-- The conditions an arithmetic instruction other than Div raises. -/
def RaisesArith (f : Int → Int → Int) (s : State) (c : Condition) : Prop :=
  (c = .stackUnderflow ∧ s.stack.length < 2) ∨
    (c = .arithmeticOverflow ∧ s.params.overflow = .fault ∧ ∃ x, TwoOn s f x ∧ ¬ IsWord s.params.wordBits x)

/-- The conditions an instruction raises, with FAULT_ADDR (60_exceptions.md R182). -/
def Raises (i : Instr) (s : State) (c : Condition) (x : Int) : Prop :=
  match i with
  | .halt => False
  | .jump _ => False
  | .push _ => x = 0 ∧ c = .stackOverflow ∧ s.params.stackCap = some s.stack.length
  | .call _ => x = 0 ∧ c = .stackOverflow ∧ s.params.stackCap = some s.stack.length
  | .pop => x = 0 ∧ c = .stackUnderflow ∧ s.stack = []
  | .print => x = 0 ∧ c = .stackUnderflow ∧ s.stack = []
  | .add => x = 0 ∧ RaisesArith (fun b a => b + a) s c
  | .sub => x = 0 ∧ RaisesArith (fun b a => b - a) s c
  | .mul => x = 0 ∧ RaisesArith (fun b a => b * a) s c
  | .div => x = 0 ∧ (RaisesArith truncDiv s c ∧ (∀ a b rest, s.stack = a :: b :: rest → a.word ≠ 0) ∨
      c = .divisionByZero ∧ ∃ a b rest, s.stack = a :: b :: rest ∧ a.word = 0)
  | .jumpIfEqual _ => x = 0 ∧ c = .stackUnderflow ∧ s.stack.length < 2
  | .jumpIfNotEqual _ => x = 0 ∧ c = .stackUnderflow ∧ s.stack.length < 2
  | .jumpIfLessThan _ => x = 0 ∧ c = .stackUnderflow ∧ s.stack.length < 2
  | .jumpIfGreaterThan _ => x = 0 ∧ c = .stackUnderflow ∧ s.stack.length < 2
  | .jumpIfLessThanOrEqual _ => x = 0 ∧ c = .stackUnderflow ∧ s.stack.length < 2
  | .jumpIfGreaterThanOrEqual _ => x = 0 ∧ c = .stackUnderflow ∧ s.stack.length < 2
  | .ret => x = 0 ∧ (c = .stackUnderflow ∧ s.stack = [] ∨
      c = .badReturnAddress ∧ s.params.debugRaCheck = true ∧ ∃ a rest, s.stack = a :: rest ∧ a.tag = false)
  | .store k => c = .stackUnderflow ∧ x = 0 ∧ s.stack = [] ∨
      c = .addressOutOfRange ∧ x = k ∧ validAddr s.params k = false ∧ s.stack ≠ []
  | .load k => c = .addressOutOfRange ∧ x = k ∧ validAddr s.params k = false ∨
      c = .stackOverflow ∧ x = 0 ∧ validAddr s.params k = true ∧ s.params.stackCap = some s.stack.length

theorem arith_cases {op : Opcode} {f : Int → Int → Int}
    (h : needTwo op s (fun a b => finishArith op (f b a) s) = .next t) :
    CompletesArith op f s t ∨ ∃ c, RaisesArith f s c ∧ t = s.enterFault c op.id 0 := by
  rcases needTwo_cases h with ⟨hs, rfl⟩ | ⟨a, b, rest, hs, h⟩
  · exact .inr ⟨_, .inl ⟨rfl, hs⟩, rfl⟩
  · rcases finishArith_cases h with ⟨hx, hp, rfl⟩ | ⟨hx, rfl⟩
    · exact .inr ⟨_, .inr ⟨rfl, hp, _, ⟨a, b, rest, hs, rfl⟩, hx⟩, rfl⟩
    · exact .inl ⟨_, ⟨a, b, rest, hs, rfl⟩, hx, rfl⟩

theorem jumpIf_inv {op : Opcode} {r : Comparison} (h : jumpIf op r k s = .next t) :
    CompletesJump op r k s t ∨ ∃ c x, (x = 0 ∧ c = .stackUnderflow ∧ s.stack.length < 2) ∧ t = s.enterFault c op.id x := by
  rcases jumpIf_cases h with ⟨hs, rfl⟩ | h
  · exact .inr ⟨_, _, ⟨rfl, rfl, hs⟩, rfl⟩
  · exact .inl h

theorem push_inv {op : Opcode} {u : State} (h : needRoom op s (.next u) = .next t) :
    (s.params.stackCap ≠ some s.stack.length ∧ t = u) ∨
      ∃ c x, (x = 0 ∧ c = .stackOverflow ∧ s.params.stackCap = some s.stack.length) ∧ t = s.enterFault c op.id x := by
  rcases needRoom_cases h with ⟨hc, rfl⟩ | ⟨hc, h⟩
  · exact .inr ⟨_, _, ⟨rfl, rfl, hc⟩, rfl⟩
  · exact .inl ⟨hc, (Host.Outcome.next.inj h).symm⟩

theorem execDiv_inv (h : execDiv s = .next t) :
    Completes .div s t ∨ ∃ c x, Raises .div s c x ∧ t = s.enterFault c Opcode.div.id x := by
  rcases needTwo_cases h with ⟨hs, rfl⟩ | ⟨a, b, rest, hs, h⟩
  · exact .inr ⟨_, _, ⟨rfl, .inl ⟨.inl ⟨rfl, hs⟩, fun a b rest e => by simp [e] at hs⟩⟩, rfl⟩
  · split at h
    · rename_i h0
      exact .inr ⟨_, _, ⟨rfl, .inr ⟨rfl, a, b, rest, hs, h0⟩⟩, raise_eq_next.1 h⟩
    · rename_i h0
      have top : ∀ a' rest', s.stack = a' :: rest' → a'.word ≠ 0 := by
        intro a' rest' e
        rw [hs] at e
        cases e
        exact h0
      rcases finishArith_cases h with ⟨hx, hp, rfl⟩ | ⟨hx, rfl⟩
      · exact .inr ⟨_, _, ⟨rfl, .inl ⟨.inr ⟨rfl, hp, _, ⟨a, b, rest, hs, rfl⟩, hx⟩, fun a b rest => top a (b :: rest)⟩⟩, rfl⟩
      · exact .inl ⟨top, _, ⟨a, b, rest, hs, rfl⟩, hx, rfl⟩

theorem execRet_inv (h : execRet s = .next t) :
    Completes .ret s t ∨ ∃ c x, Raises .ret s c x ∧ t = s.enterFault c Opcode.ret.id x := by
  rcases needOne_cases h with ⟨hs, rfl⟩ | ⟨a, rest, hs, h⟩
  · exact .inr ⟨_, _, ⟨rfl, .inl ⟨rfl, hs⟩⟩, rfl⟩
  · split at h
    · rename_i hc
      simp only [Bool.and_eq_true, Bool.not_eq_true'] at hc
      exact .inr ⟨_, _, ⟨rfl, .inr ⟨rfl, hc.1, a, rest, hs, hc.2⟩⟩, raise_eq_next.1 h⟩
    · rename_i hc
      refine .inl ⟨a, rest, hs, fun hd => ?_, (Host.Outcome.next.inj h).symm⟩
      simpa [hd] using hc

theorem execStore_inv (h : execStore k s = .next t) :
    Completes (.store k) s t ∨ ∃ c x, Raises (.store k) s c x ∧ t = s.enterFault c Opcode.store.id x := by
  rcases needOne_cases h with ⟨hs, rfl⟩ | ⟨a, rest, hs, h⟩
  · exact .inr ⟨_, _, .inl ⟨rfl, rfl, hs⟩, rfl⟩
  · rcases needAddr_cases h with ⟨hv, rfl⟩ | ⟨hv, h⟩
    · exact .inr ⟨_, _, .inr ⟨rfl, rfl, hv, by simp [hs]⟩, rfl⟩
    · exact .inl ⟨a, rest, hs, hv, (Host.Outcome.next.inj h).symm⟩

theorem execLoad_inv (h : execLoad k s = .next t) :
    Completes (.load k) s t ∨ ∃ c x, Raises (.load k) s c x ∧ t = s.enterFault c Opcode.load.id x := by
  unfold execLoad at h
  split at h
  · rename_i hr
    exact .inr ⟨_, _, .inl ⟨rfl, rfl, memRead_eq_none.1 hr⟩, raise_eq_next.1 h⟩
  · rename_i v hr
    obtain ⟨hv, rfl⟩ := memRead_eq_some.1 hr
    rcases needRoom_cases h with ⟨hc, rfl⟩ | ⟨hc, h⟩
    · exact .inr ⟨_, _, .inr ⟨rfl, rfl, hv, hc⟩, rfl⟩
    · exact .inl ⟨hv, hc, (Host.Outcome.next.inj h).symm⟩

/-- All that `exec` can do: the instruction completes, or raises one of its conditions and the record names its opcode. -/
theorem exec_cases {i : Instr} (h : exec i s = .next t) :
    Completes i s t ∨ ∃ c x, Raises i s c x ∧ t = s.enterFault c i.opcode.id x := by
  have arith : ∀ {op : Opcode} {f : Int → Int → Int},
      (CompletesArith op f s t ∨ ∃ c, RaisesArith f s c ∧ t = s.enterFault c op.id 0) →
      CompletesArith op f s t ∨ ∃ c x, (x = 0 ∧ RaisesArith f s c) ∧ t = s.enterFault c op.id x := by
    rintro op f (hc | ⟨c, hr, e⟩)
    · exact .inl hc
    · exact .inr ⟨c, 0, ⟨rfl, hr⟩, e⟩
  cases i with
  | halt => exact .inl (Host.Outcome.next.inj h).symm
  | push k => exact push_inv h
  | pop =>
    rcases needOne_cases h with ⟨hs, rfl⟩ | ⟨a, rest, hs, h⟩
    · exact .inr ⟨_, _, ⟨rfl, rfl, hs⟩, rfl⟩
    · exact .inl ⟨⟨a, rest, hs⟩, (Host.Outcome.next.inj h).symm⟩
  | add => exact arith (arith_cases (f := fun b a => b + a) h)
  | sub => exact arith (arith_cases (f := fun b a => b - a) h)
  | mul => exact arith (arith_cases (f := fun b a => b * a) h)
  | div => exact execDiv_inv h
  | jump k => exact .inl (Host.Outcome.next.inj h).symm
  | jumpIfEqual k => exact jumpIf_inv h
  | jumpIfNotEqual k => exact jumpIf_inv h
  | jumpIfLessThan k => exact jumpIf_inv h
  | jumpIfGreaterThan k => exact jumpIf_inv h
  | jumpIfLessThanOrEqual k => exact jumpIf_inv h
  | jumpIfGreaterThanOrEqual k => exact jumpIf_inv h
  | call k => exact push_inv h
  | ret => exact execRet_inv h
  | print =>
    rcases needOne_cases h with ⟨hs, rfl⟩ | ⟨a, rest, hs, h⟩
    · exact .inr ⟨_, _, ⟨rfl, rfl, hs⟩, rfl⟩
    · exact .inl ⟨a, rest, hs, (Host.Outcome.next.inj h).symm⟩
  | store k => exact execStore_inv h
  | load k => exact execLoad_inv h

end Sys2Proof.Machine
end

