-- ==== Sys2Proof/Laws/Memory.lean ====
section
/-! SUPPORT. The laws of memory: reading after writing, and that every memory operation keeps the canonical form. -/

namespace Sys2Proof.Machine

@[simp] theorem Memory.read_nil (a : Nat) : Memory.read [] a = unlistedCell := rfl

theorem Memory.read_cons (k : Nat) (v : Int) (m : Memory) (a : Nat) :
    Memory.read ((k, v) :: m) a = if k = a then v else Memory.read m a := rfl

/-- A cell below every listed address is not listed. -/
theorem Memory.read_of_lt {m : Memory} {a : Nat} (h : ∀ c ∈ m, a < c.1) : m.read a = unlistedCell := by
  induction m with
  | nil => rfl
  | cons c m ih =>
    have hc := h c (by simp)
    rw [Memory.read_cons, if_neg (by omega), ih fun d hd => h d (by simp [hd])]

theorem Memory.wf_cons {c : Nat × Int} {m : Memory} :
    Memory.wf (c :: m) ↔ (∀ d ∈ m, c.1 < d.1) ∧ c.2 ≠ unlistedCell ∧ m.wf := by
  simp only [Memory.wf, List.pairwise_cons, List.mem_cons, forall_eq_or_imp]
  tauto

/-- Reading after a write: the written cell holds the value, every other cell is as before. -/
theorem Memory.read_write {m : Memory} (h : m.wf) (a : Nat) (v : Int) (x : Nat) :
    (m.write a v).read x = if x = a then v else m.read x := by
  induction m with
  | nil =>
    unfold Memory.write
    split <;> simp_all [Memory.read_cons, eq_comm]
  | cons c m ih =>
    obtain ⟨k, w⟩ := c
    obtain ⟨hk, hw, hm⟩ := Memory.wf_cons.1 h
    have below : ∀ y ≤ k, Memory.read m y = unlistedCell := fun y hy =>
      Memory.read_of_lt fun d hd => lt_of_le_of_lt hy (hk d hd)
    have hka := below k le_rfl
    unfold Memory.write
    by_cases hlt : a < k
    · have ha := below a hlt.le
      by_cases hv : v = unlistedCell
      · simp only [hlt, hv, if_true, Memory.read_cons]
        by_cases hx : x = a
        · subst hx; simp [ha, hlt.ne']
        · simp [hx]
      · simp only [hlt, hv, if_true, if_false, Memory.read_cons]
        by_cases hx : x = a
        · simp [hx]
        · simp [hx, Ne.symm hx]
    · by_cases hak : a = k
      · subst hak
        by_cases hv : v = unlistedCell
        · simp only [lt_irrefl, hv, if_true, if_false, Memory.read_cons]
          by_cases hx : x = a
          · subst hx; simp [hka]
          · simp [hx, Ne.symm hx]
        · simp only [lt_irrefl, hv, if_true, if_false, Memory.read_cons]
          by_cases hx : x = a
          · simp [hx]
          · simp [hx, Ne.symm hx]
      · simp only [hlt, hak, if_false, Memory.read_cons, ih hm]
        by_cases hx : x = a
        · subst hx; simp [Ne.symm hak]
        · simp [hx]

/-- What a write can list: nothing but the cells listed before and the written one. -/
theorem Memory.mem_write {m : Memory} {a : Nat} {v : Int} {c : Nat × Int} (h : c ∈ m.write a v) :
    c ∈ m ∨ c = (a, v) ∧ v ≠ unlistedCell := by
  induction m with
  | nil =>
    unfold Memory.write at h
    split at h <;> simp_all
  | cons d m ih =>
    obtain ⟨k, w⟩ := d
    unfold Memory.write at h
    split at h
    · split at h <;> simp_all
      tauto
    · split at h
      · split at h <;> simp_all
        tauto
      · rcases List.mem_cons.1 h with rfl | h
        · simp
        · rcases ih h with h | h
          · exact .inl (by simp [h])
          · exact .inr h

/-- A write keeps the canonical form. -/
theorem Memory.wf_write {m : Memory} (h : m.wf) (a : Nat) (v : Int) : (m.write a v).wf := by
  induction m with
  | nil =>
    unfold Memory.write
    split <;> simp_all [Memory.wf]
  | cons c m ih =>
    obtain ⟨k, w⟩ := c
    obtain ⟨hk, hw, hm⟩ := Memory.wf_cons.1 h
    unfold Memory.write
    split
    · rename_i hlt
      split
      · exact h
      · rename_i hv
        refine Memory.wf_cons.2 ⟨fun d hd => ?_, hv, h⟩
        rcases List.mem_cons.1 hd with rfl | hd
        · exact hlt
        · exact hlt.trans (hk d hd)
    · split
      · split
        · exact hm
        · rename_i hak hv
          exact Memory.wf_cons.2 ⟨fun d hd => hak ▸ hk d hd, hv, hm⟩
      · refine Memory.wf_cons.2 ⟨fun d hd => ?_, hw, ih hm⟩
        rcases Memory.mem_write hd with hd | ⟨rfl, -⟩
        · exact hk d hd
        · simp only; omega

/-- Copying an image keeps the canonical form. -/
theorem Memory.wf_copy {m : Memory} (h : m.wf) (a : Nat) (image : List Int) : (m.copy a image).wf := by
  induction image generalizing m a with
  | nil => exact h
  | cons v image ih => exact ih (Memory.wf_write h a v) (a + 1)

/-- What a copy can list: the cells listed before, and cells of the image. -/
theorem Memory.mem_copy {m : Memory} {a : Nat} {image : List Int} {c : Nat × Int} (h : c ∈ m.copy a image) :
    c ∈ m ∨ (a ≤ c.1 ∧ c.1 < a + image.length) ∧ c.2 ∈ image := by
  induction image generalizing m a with
  | nil => exact .inl h
  | cons v image ih =>
    rcases ih h with h | ⟨⟨h1, h2⟩, h3⟩
    · rcases Memory.mem_write h with h | ⟨rfl, -⟩
      · exact .inl h
      · exact .inr ⟨⟨le_rfl, by simp⟩, by simp⟩
    · exact .inr ⟨⟨by omega, by simp only [List.length_cons]; omega⟩, by simp [h3]⟩

/-- The empty memory is canonical. -/
theorem Memory.wf_nil : Memory.wf [] := by simp [Memory.wf]

end Sys2Proof.Machine
end

