-- ==== Sys2Proof/Laws/PerInstr.lean ====
section
/-! SUPPORT. Facts proved instruction by instruction. -/

namespace Sys2Proof.Laws.EncodingShape

/-- An instruction occupies as many cells as its opcode's width (30_encoding.md R74), and the decoder reads it back from them
whatever cells follow (R75, R81). -/
def Statement (i : Instr) : Prop :=
  (encode i).length = i.opcode.width ∧ ∀ rest, decode (encode i ++ rest) = .ok (i, rest)

theorem halt : Statement .halt := ⟨rfl, fun _ => rfl⟩

theorem push (k : Int) : Statement (.push k) := ⟨rfl, fun _ => rfl⟩

theorem pop : Statement .pop := ⟨rfl, fun _ => rfl⟩

theorem add : Statement .add := ⟨rfl, fun _ => rfl⟩

theorem sub : Statement .sub := ⟨rfl, fun _ => rfl⟩

theorem mul : Statement .mul := ⟨rfl, fun _ => rfl⟩

theorem div : Statement .div := ⟨rfl, fun _ => rfl⟩

theorem jump (k : Int) : Statement (.jump k) := ⟨rfl, fun _ => rfl⟩

theorem jumpIfEqual (k : Int) : Statement (.jumpIfEqual k) := ⟨rfl, fun _ => rfl⟩

theorem jumpIfNotEqual (k : Int) : Statement (.jumpIfNotEqual k) := ⟨rfl, fun _ => rfl⟩

theorem jumpIfLessThan (k : Int) : Statement (.jumpIfLessThan k) := ⟨rfl, fun _ => rfl⟩

theorem jumpIfGreaterThan (k : Int) : Statement (.jumpIfGreaterThan k) := ⟨rfl, fun _ => rfl⟩

theorem jumpIfLessThanOrEqual (k : Int) : Statement (.jumpIfLessThanOrEqual k) := ⟨rfl, fun _ => rfl⟩

theorem jumpIfGreaterThanOrEqual (k : Int) : Statement (.jumpIfGreaterThanOrEqual k) := ⟨rfl, fun _ => rfl⟩

theorem call (k : Int) : Statement (.call k) := ⟨rfl, fun _ => rfl⟩

theorem ret : Statement .ret := ⟨rfl, fun _ => rfl⟩

theorem print : Statement .print := ⟨rfl, fun _ => rfl⟩

theorem store (k : Int) : Statement (.store k) := ⟨rfl, fun _ => rfl⟩

theorem load (k : Int) : Statement (.load k) := ⟨rfl, fun _ => rfl⟩

end Sys2Proof.Laws.EncodingShape
end

