-- ==== Sys2Proof/Laws/Run.lean ====
section
/-! SUPPORT. The laws of runs: how steps compose, and that a state of a run is the only one after its number of steps. -/

namespace Sys2Proof.Machine

variable {s t u : State} {k : Nat}

@[simp] theorem runFor_zero (s : State) : runFor 0 s = .next s := rfl

theorem runFor_succ (h : step s = .next t) (k : Nat) : runFor (k + 1) s = runFor k t := by simp only [runFor, h]

/-- All that `k + 1` steps can do: a first step, and `k` steps from there. -/
theorem runFor_succ_eq_next : runFor (k + 1) s = .next u ↔ ∃ t, step s = .next t ∧ runFor k t = .next u := by
  cases h : step s <;> simp [runFor, h]

/-- `j + k` steps are `j` steps and `k` more. -/
theorem runFor_add_eq_next {j : Nat} :
    runFor (j + k) s = .next u ↔ ∃ t, runFor j s = .next t ∧ runFor k t = .next u := by
  induction j generalizing s with
  | zero => simp
  | succ j ih =>
    rw [Nat.succ_add]
    simp only [runFor_succ_eq_next, ih]
    constructor
    · rintro ⟨a, ha, b, hb, hu⟩
      exact ⟨b, ⟨a, ha, hb⟩, hu⟩
    · rintro ⟨b, ⟨a, ha, hb⟩, hu⟩
      exact ⟨a, ha, b, hb, hu⟩

theorem InRun.refl (s : State) : InRun s 0 s := ⟨rfl, fun j hj => absurd hj (by omega)⟩

/-- A run that has ended makes no further step: the states before one of the run are RUNNING. -/
theorem InRun.running_of_lt {j : Nat} (h : InRun s k t) (hj : j < k) (hu : runFor j s = .next u) : u.runState = .running := by
  obtain ⟨v, hv, hr⟩ := h.2 j hj
  rw [hu] at hv
  cases hv
  exact hr

theorem InRun.state_unique (ht : InRun s k t) (hu : InRun s k u) : t = u := Host.Outcome.next.inj (ht.1.symm.trans hu.1)

/-- A run ends after one number of steps only. -/
theorem InRun.end_unique {j : Nat} (ht : InRun s k t) (hu : InRun s j u) (h1 : t.runState ≠ .running) (h2 : u.runState ≠ .running) :
    k = j := by
  rcases lt_trichotomy k j with h | h | h
  · exact absurd (hu.running_of_lt h ht.1) h1
  · exact h
  · exact absurd (ht.running_of_lt h hu.1) h2

end Sys2Proof.Machine
end

