-- ==== Sys2Proof/Laws/Transparent.lean ====
section
/-! SUPPORT. What an instruction does not read it does not depend on: a change of the state that keeps what instructions read and
commutes with their updates commutes with `exec`. -/

namespace Sys2Proof.Machine

/-- The answer with its next state changed by `g`. -/
def mapNext (g : State → State) : Result → Result
  | .next t => .next (g t)
  | .fault r => .fault r
  | .refused r => .refused r

/-- `g` changes nothing that an instruction reads but, perhaps, STACK_CAP, and it commutes with every update an instruction makes. -/
structure Transparent (g : State → State) : Prop where
  ip : ∀ s, (g s).ip = s.ip
  stack : ∀ s, (g s).stack = s.stack
  mem : ∀ s, (g s).mem = s.mem
  wordBits : ∀ s, (g s).params.wordBits = s.params.wordBits
  memCap : ∀ s, (g s).params.memCap = s.params.memCap
  overflow : ∀ s, (g s).params.overflow = s.params.overflow
  printConsumes : ∀ s, (g s).params.printConsumes = s.params.printConsumes
  debugRaCheck : ∀ s, (g s).params.debugRaCheck = s.params.debugRaCheck
  setIp : ∀ s t, (g s).setIp t = g (s.setIp t)
  drop : ∀ s n, (g s).drop n = g (s.drop n)
  push : ∀ s v, (g s).push v = g (s.push v)
  pushReturn : ∀ s v, (g s).pushReturn v = g (s.pushReturn v)
  emit : ∀ s v, (g s).emit v = g (s.emit v)
  memWrite : ∀ s a v, (g s).memWrite a v = g (s.memWrite a v)
  halt : ∀ s, (g s).halt = g s.halt
  enterFault : ∀ s c o a, (g s).enterFault c o a = g (s.enterFault c o a)

variable {g : State → State} {s : State} {k : Int}

theorem Transparent.validAddr (hg : Transparent g) (s : State) (a : Int) :
    Machine.validAddr (g s).params a = Machine.validAddr s.params a := by
  simp only [Machine.validAddr, hg.memCap]

theorem Transparent.memRead (hg : Transparent g) (s : State) (a : Int) : (g s).memRead a = s.memRead a := by
  simp only [State.memRead, hg.validAddr, hg.mem]

theorem Transparent.advance (hg : Transparent g) (s : State) (op : Opcode) : (g s).advance op = g (s.advance op) := by
  simp only [State.advance, hg.ip, hg.setIp]

theorem Transparent.raise (hg : Transparent g) (c : Condition) (o a : Int) (s : State) :
    Machine.raise c o a (g s) = mapNext g (Machine.raise c o a s) := by
  simp only [Machine.raise, mapNext, hg.enterFault]

theorem Transparent.needOne (hg : Transparent g) {op : Opcode} {f f' : StackEntry → Result} (h : ∀ a, f' a = mapNext g (f a)) :
    needOne op (g s) f' = mapNext g (needOne op s f) := by
  unfold Machine.needOne
  rw [hg.stack]
  cases s.stack with
  | nil => exact hg.raise _ _ _ _
  | cons a rest => exact h a

theorem Transparent.needTwo (hg : Transparent g) {op : Opcode} {f f' : Int → Int → Result}
    (h : ∀ a b, f' a b = mapNext g (f a b)) : needTwo op (g s) f' = mapNext g (needTwo op s f) := by
  unfold Machine.needTwo
  rw [hg.stack]
  match s.stack with
  | [] => exact hg.raise _ _ _ _
  | [_] => exact hg.raise _ _ _ _
  | a :: b :: rest => exact h a.word b.word

theorem Transparent.needRoom (hg : Transparent g) (hf : (g s).stackFull = s.stackFull) {op : Opcode} {x x' : Result}
    (h : x' = mapNext g x) : needRoom op (g s) x' = mapNext g (needRoom op s x) := by
  unfold Machine.needRoom
  rw [hf, h]
  split
  · exact hg.raise _ _ _ _
  · rfl

theorem Transparent.finishArith (hg : Transparent g) (op : Opcode) (x : Int) :
    finishArith op x (g s) = mapNext g (finishArith op x s) := by
  unfold Machine.finishArith
  rw [hg.wordBits, hg.overflow, hg.drop, hg.push, hg.advance]
  split
  · exact hg.raise _ _ _ _
  · rfl

theorem Transparent.jumpIf (hg : Transparent g) (op : Opcode) (r : Comparison) (k : Int) :
    jumpIf op r k (g s) = mapNext g (jumpIf op r k s) :=
  hg.needTwo fun a b => by
    rw [hg.drop, hg.setIp, hg.advance]
    split <;> rfl

/-- Nothing `g` changes is read by an instruction: with the same room on the stack it does the same. -/
theorem Transparent.exec (hg : Transparent g) (i : Instr) (hf : (g s).stackFull = s.stackFull) :
    exec i (g s) = mapNext g (exec i s) := by
  cases i with
  | halt => exact congrArg Host.Outcome.next (hg.halt s)
  | push k => exact hg.needRoom hf (by rw [hg.push, hg.advance]; rfl)
  | pop => exact hg.needOne fun a => by rw [hg.drop, hg.advance]; rfl
  | add => rw [exec_add, exec_add]; exact hg.needTwo fun a b => hg.finishArith _ _
  | sub => rw [exec_sub, exec_sub]; exact hg.needTwo fun a b => hg.finishArith _ _
  | mul => rw [exec_mul, exec_mul]; exact hg.needTwo fun a b => hg.finishArith _ _
  | div =>
    rw [exec_div, exec_div]
    refine hg.needTwo fun a b => ?_
    split
    · exact hg.raise _ _ _ _
    · exact hg.finishArith _ _
  | jump k => exact congrArg Host.Outcome.next (hg.setIp s k)
  | jumpIfEqual k => exact hg.jumpIf _ _ k
  | jumpIfNotEqual k => exact hg.jumpIf _ _ k
  | jumpIfLessThan k => exact hg.jumpIf _ _ k
  | jumpIfGreaterThan k => exact hg.jumpIf _ _ k
  | jumpIfLessThanOrEqual k => exact hg.jumpIf _ _ k
  | jumpIfGreaterThanOrEqual k => exact hg.jumpIf _ _ k
  | call k => exact hg.needRoom hf (by rw [hg.ip, hg.pushReturn, hg.setIp]; rfl)
  | ret =>
    refine hg.needOne fun a => ?_
    rw [hg.debugRaCheck, hg.drop, hg.setIp]
    split
    · exact hg.raise _ _ _ _
    · rfl
  | print =>
    refine hg.needOne fun a => ?_
    rw [hg.printConsumes, hg.emit, hg.drop]
    split <;> rw [hg.advance] <;> rfl
  | store k =>
    refine hg.needOne fun a => ?_
    unfold needAddr
    rw [hg.validAddr, hg.drop, hg.memWrite, hg.advance]
    split
    · rfl
    · exact hg.raise _ _ _ _
  | load k =>
    rw [exec_load, exec_load, hg.memRead]
    cases s.memRead k with
    | none => exact hg.raise _ _ _ _
    | some v => exact hg.needRoom hf (by rw [hg.push, hg.advance]; rfl)

theorem Transparent.fetch (hg : Transparent g) (s : State) : fetch (g s) = fetch s := by
  unfold Machine.fetch
  rw [hg.ip, hg.memRead, hg.memRead]

/-- The host's moves to come are read by no instruction. -/
theorem Transparent.withHost (h : List HostMove) : Transparent fun s => { s with host := h } := by
  constructor <;> intros <;> rfl

/-- LOAD_STATUS is read by no instruction (10_state.md section 4). -/
theorem Transparent.withLoadStatus (v : BitVec 4) : Transparent fun s => { s with loadStatus := v } := by
  constructor <;> intros <;> rfl

/-- Of the parameters, STACK_CAP is read only by the check for room. -/
theorem Transparent.withStackCap (c : Option Nat) :
    Transparent fun s => { s with params := { s.params with stackCap := c } } := by
  constructor <;> intros <;> rfl

end Sys2Proof.Machine
end

