-- ==== Sys2Proof/Tests/Slice0.lean ====
section
/-! SUPPORT. The model's own tests: ill-formed terms, written-out words, single steps with the results spec/95_test_vectors.md gives,
and for every statement with hypotheses a witness that meets them. -/

open Sys2Proof Sys2Proof.Machine Sys2Proof.Claims

namespace Sys2Proof.Tests

/-- A stack written bottom to top, as 95_test_vectors.md writes it, of plain data entries. -/
def stackOf (bottomUp : List Int) : List StackEntry := (bottomUp.map fun v => { word := v, tag := false }).reverse

/-- An instance with parameters `p`, RUNNING at `ip`, with the words `cells` from `ip` upward. -/
def runningWith (p : Params) (ip : Int) (bottomUp : List Int) (cells : List Int) : State :=
  State.placeCells { State.resetOf p with runState := .running, ip := ip, stack := stackOf bottomUp } ip cells

/-- The same in the configuration of 95_test_vectors.md. -/
def running (ip : Int) (bottomUp : List Int) (cells : List Int) : State := runningWith referenceParams ip bottomUp cells

/-- The stack (bottom to top), `ip` and RUN_STATE of an answer. -/
def shown : Result → Option (List Int × Int × RunState)
  | .next t => some ((t.stack.map StackEntry.word).reverse, t.ip, t.runState)
  | .fault _ => none
  | .refused _ => none

/-- FAULT_CODE, FAULT_IP, FAULT_OPCODE and FAULT_ADDR of an answer that is FAULTED. -/
def recorded : Result → Option (Nat × Int × Int × Int)
  | .next t =>
    if t.runState = .faulted then
      some (t.faultRecord.code.toNat, t.faultRecord.ip, t.faultRecord.opcode, t.faultRecord.addr)
    else none
  | .fault _ => none
  | .refused _ => none

/-- The words delivered by an answer. -/
def emitted : Result → Option (List Int)
  | .next t => some t.output
  | .fault _ => none
  | .refused _ => none

/-- The word of cell `a` in an answer. -/
def cellAfter (a : Nat) : Result → Option Int
  | .next t => some (t.mem.read a)
  | .fault _ => none
  | .refused _ => none

/-- The reference parameters with one value changed. -/
def faulting : Params := { referenceParams with overflow := .fault }
def consuming : Params := { referenceParams with printConsumes := true }
def checking : Params := { referenceParams with debugRaCheck := true }
def capped (c : Nat) : Params := { referenceParams with stackCap := some c }
def cells (n : Nat) : Params := { referenceParams with memCap := n }

/-- The widest memory an 8-bit word allows, and the narrowest word. -/
def small : Params := { referenceParams with wordBits := 8, memCap := 126 }

/-! ### WellFormed: an operand that is no word is refused (30_encoding.md R80, R82) -/

theorem test_wellFormed_refuses_above : ¬ (Instr.push 128).WellFormed 8 := by decide
theorem test_wellFormed_refuses_below : ¬ (Instr.jump (-129)).WellFormed 8 := by decide
theorem test_wellFormed_accepts_bounds : (Instr.push 127).WellFormed 8 ∧ (Instr.load (-128)).WellFormed 8 := by decide
theorem test_wellFormed_refuses_program : ¬ ProgramWellFormed 8 [.push 1, .store 200, .halt] := by decide

/-! ### Decoding: cells written out from 30_encoding.md R72, and the same as table words -/

theorem test_decode_halt : decode [0] = .ok (.halt, []) ∧ decodeTableWord 32 0x00000000 = some .halt := by decide
theorem test_decode_push :
    decode [1, 7] = .ok (.push 7, []) ∧ decodeTableWord 64 0xFFFFFFFB00000001 = some (.push (-5)) := by decide
theorem test_decode_pop : decode [2] = .ok (.pop, []) ∧ decodeTableWord 32 0x00000002 = some .pop := by decide
theorem test_decode_add : decode [3] = .ok (.add, []) ∧ decodeTableWord 32 0x00000003 = some .add := by decide
theorem test_decode_sub : decode [4] = .ok (.sub, []) ∧ decodeTableWord 32 0x00000004 = some .sub := by decide
theorem test_decode_mul : decode [5] = .ok (.mul, []) ∧ decodeTableWord 32 0x00000005 = some .mul := by decide
theorem test_decode_div : decode [6] = .ok (.div, []) ∧ decodeTableWord 32 0x00000006 = some .div := by decide
theorem test_decode_jump :
    decode [7, 20] = .ok (.jump 20, []) ∧ decodeTableWord 64 0x0000001400000007 = some (.jump 20) := by decide
theorem test_decode_jumpIfEqual :
    decode [8, 20] = .ok (.jumpIfEqual 20, []) ∧ decodeTableWord 32 0x00000008 = some (.jumpIfEqual 0) := by decide
theorem test_decode_jumpIfNotEqual :
    decode [9, 20] = .ok (.jumpIfNotEqual 20, []) ∧ decodeTableWord 32 0x00000009 = some (.jumpIfNotEqual 0) := by decide
theorem test_decode_jumpIfLessThan :
    decode [10, 20] = .ok (.jumpIfLessThan 20, []) ∧ decodeTableWord 32 0x0000000A = some (.jumpIfLessThan 0) := by decide
theorem test_decode_jumpIfGreaterThan :
    decode [11, 20] = .ok (.jumpIfGreaterThan 20, []) ∧
      decodeTableWord 32 0x0000000B = some (.jumpIfGreaterThan 0) := by decide
theorem test_decode_jumpIfLessThanOrEqual :
    decode [12, 20] = .ok (.jumpIfLessThanOrEqual 20, []) ∧
      decodeTableWord 32 0x0000000C = some (.jumpIfLessThanOrEqual 0) := by decide
theorem test_decode_jumpIfGreaterThanOrEqual :
    decode [13, 20] = .ok (.jumpIfGreaterThanOrEqual 20, []) ∧
      decodeTableWord 32 0x0000000D = some (.jumpIfGreaterThanOrEqual 0) := by decide
theorem test_decode_call :
    decode [14, 10] = .ok (.call 10, []) ∧ decodeTableWord 64 0x0000000A0000000E = some (.call 10) := by decide
theorem test_decode_return : decode [15] = .ok (.ret, []) ∧ decodeTableWord 32 0x0000000F = some .ret := by decide
theorem test_decode_print : decode [16] = .ok (.print, []) ∧ decodeTableWord 32 0x00000010 = some .print := by decide
theorem test_decode_store :
    decode [17, 20, 4] = .ok (.store 20, [4]) ∧ decodeTableWord 64 0x0000001400000011 = some (.store 20) := by decide
theorem test_decode_load :
    decode [18, 20] = .ok (.load 20, []) ∧ decodeTableWord 32 0x00000012 = some (.load 0) := by decide
theorem test_decode_refuses :
    decode [19] = .error (.invalidOpcode 19) ∧ decode [-1, 0] = .error (.invalidOpcode (-1)) ∧
      decode [1] = .error (.missingOperand .push) ∧ decode [] = .error .noCell ∧
      decodeTableWord 32 0xFFFFFFFF = none ∧ decodeTableWord 32 0x00000013 = none := by decide

/-! ### One step of each instruction (95_test_vectors.md, Part 2; the V number of the vector is given) -/

/-- V110. -/
theorem test_halt : shown (step (running 4 [3] [0])) = some ([3], 4, .halted) := by decide
/-- V11. -/
theorem test_push_negative : shown (step (running 0 [] [1, -5])) = some ([-5], 2, .running) := by decide
/-- V12. -/
theorem test_push_overflows : recorded (step (runningWith (capped 2) 0 [1, 2] [1, 3])) = some (6, 0, 1, 0) := by decide
/-- V13. -/
theorem test_pop : shown (step (running 5 [4, 9] [2])) = some ([4], 6, .running) := by decide
/-- V14. -/
theorem test_pop_empty : recorded (step (running 0 [] [2])) = some (2, 0, 2, 0) := by decide
/-- V21 under `wrap`. -/
theorem test_add_wraps : shown (step (running 0 [2147483647, 1] [3])) = some ([-2147483648], 1, .running) := by decide
/-- V21 under `fault`. -/
theorem test_add_faults : recorded (step (runningWith faulting 0 [2147483647, 1] [3])) = some (7, 0, 3, 0) := by decide
/-- V23: the top is the subtrahend. -/
theorem test_sub : shown (step (running 0 [10, 3] [4])) = some ([7], 1, .running) := by decide
/-- V26. -/
theorem test_sub_wraps : shown (step (running 0 [0, -2147483648] [4])) = some ([-2147483648], 1, .running) := by decide
/-- V30. -/
theorem test_mul_wraps : shown (step (running 0 [-2147483648, -1] [5])) = some ([-2147483648], 1, .running) := by decide
/-- V28 under `fault`. -/
theorem test_mul_faults : shown (step (runningWith faulting 0 [65536, 65536] [5])) = some ([65536, 65536], 0, .faulted) := by
  decide
/-- V33: toward zero, the top is the divisor. -/
theorem test_div_truncates : shown (step (running 0 [-7, 2] [6])) = some ([-3], 1, .running) := by decide
/-- V38. -/
theorem test_div_zero : recorded (step (running 0 [0, 0] [6])) = some (3, 0, 6, 0) := by decide
/-- V51. -/
theorem test_jump_unchecked : shown (step (running 10 [] [7, -1])) = some ([], -1, .running) := by decide
/-- V52. -/
theorem test_jumpIfEqual_taken : shown (step (running 10 [5, 5] [8, 20])) = some ([], 20, .running) := by decide
/-- V68. -/
theorem test_jumpIfEqual_underflow : recorded (step (running 10 [7] [8, 20])) = some (2, 10, 8, 0) := by decide
/-- V54. -/
theorem test_jumpIfNotEqual_taken : shown (step (running 10 [5, 6] [9, 20])) = some ([], 20, .running) := by decide
/-- V55. -/
theorem test_jumpIfNotEqual_not : shown (step (running 10 [5, 5] [9, 20])) = some ([], 12, .running) := by decide
/-- V57: the last pushed is the left operand. -/
theorem test_jumpIfLessThan_not : shown (step (running 10 [3, 5] [10, 20])) = some ([], 12, .running) := by decide
/-- V59: signed. -/
theorem test_jumpIfLessThan_signed : shown (step (running 10 [0, -1] [10, 20])) = some ([], 20, .running) := by decide
/-- V61. -/
theorem test_jumpIfGreaterThan_signed :
    shown (step (running 10 [-2147483648, 2147483647] [11, 20])) = some ([], 20, .running) := by decide
/-- V62. -/
theorem test_jumpIfGreaterThan_equal : shown (step (running 10 [4, 4] [11, 20])) = some ([], 12, .running) := by decide
/-- V63. -/
theorem test_jumpIfLessThanOrEqual_equal : shown (step (running 10 [4, 4] [12, 20])) = some ([], 20, .running) := by decide
/-- V64. -/
theorem test_jumpIfLessThanOrEqual_not : shown (step (running 10 [3, 5] [12, 20])) = some ([], 12, .running) := by decide
/-- V65. -/
theorem test_jumpIfGreaterThanOrEqual_not : shown (step (running 10 [5, 3] [13, 20])) = some ([], 12, .running) := by
  decide
/-- V66. -/
theorem test_jumpIfGreaterThanOrEqual_equal : shown (step (running 10 [4, 4] [13, 20])) = some ([], 20, .running) := by
  decide
/-- V69. -/
theorem test_call : shown (step (running 10 [] [14, 20])) = some ([12], 20, .running) := by decide
/-- V70. -/
theorem test_call_overflows : recorded (step (runningWith (capped 1) 10 [9] [14, 20])) = some (6, 10, 14, 0) := by decide
/-- V73. -/
theorem test_return : shown (step (running 10 [3, 99] [15])) = some ([3], 99, .running) := by decide
/-- V74. -/
theorem test_return_checked : recorded (step (runningWith checking 10 [12] [15])) = some (8, 10, 15, 0) := by decide
/-- V84: Print peeks. -/
theorem test_print : emitted (step (running 0 [1, 2] [16])) = some [2] ∧
    shown (step (running 0 [1, 2] [16])) = some ([1, 2], 1, .running) := by decide
/-- V83. -/
theorem test_print_consumes : shown (step (runningWith consuming 0 [3] [16])) = some ([], 1, .running) := by decide
/-- V95: the last valid cell. -/
theorem test_store_last : cellAfter 31 (step (running 0 [7] [17, 31])) = some 7 := by decide
/-- V94: underflow comes before the address check. -/
theorem test_store_underflow : recorded (step (running 0 [] [17, 40])) = some (2, 0, 17, 0) := by decide
/-- V101: Load reads its own operand. -/
theorem test_load_own_operand : shown (step (running 10 [] [18, 11])) = some ([11], 12, .running) := by decide
/-- V99: the address check comes before StackOverflow. -/
theorem test_load_address_first : recorded (step (runningWith (capped 1) 0 [1] [18, 40])) = some (4, 0, 18, 40) := by decide

/-! ### Fetch (V4 to V9) -/

theorem test_fetch_invalidOpcode : recorded (step (running 0 [] [2147483647])) = some (1, 0, 2147483647, 0) := by decide
theorem test_fetch_ip_at_end : recorded (step (running 32 [] [])) = some (4, 32, 0, 32) := by decide
theorem test_fetch_operand_at_end : recorded (step (running 31 [] [1])) = some (4, 31, 1, 32) := by decide
theorem test_fetch_no_operand_at_end : shown (step (running 31 [5] [2])) = some ([], 32, .running) := by decide
theorem test_fetch_ip_negative : recorded (step (running (-1) [] [])) = some (4, -1, 0, -1) := by decide
theorem test_fetch_decode_before_operand : recorded (step (running 31 [] [99])) = some (1, 31, 99, 0) := by decide

/-! ### The instruction of a table word as the first after reset (log 11) -/

theorem test_withFetchWord : shown (step (State.reset.withFetchWord 64 0xFFFFFFFB00000001)) = some ([-5], 2, .running) := by
  decide
theorem test_withFetchWord_short : shown (step (State.reset.withFetchWord 32 0x0000000E)) = some ([2], 0, .running) := by
  decide

/-! ### The host (E5, V112 to V116) -/

/-- E5. -/
theorem test_load_too_large : ∀ t, step { State.resetOf (cells 4) with host := [.load [1, 1, 1, 2, 3]] } = .next t →
    t.loadStatus = 5 ∧ t.mem = [] ∧ t.runState = .ready := by
  rintro t h
  cases h
  decide
/-- V114, its second LOAD. -/
theorem test_load_overwrites :
    cellAfter 0 (step { State.reset with mem := [(0, 1), (1, 2), (2, 3)], host := [.load [9]] }) = some 9 ∧
    cellAfter 1 (step { State.reset with mem := [(0, 1), (1, 2), (2, 3)], host := [.load [9]] }) = some 2 := by decide
/-- V115. -/
theorem test_start_in_halted : shown (step { State.reset with runState := .halted, host := [.start] }) = some ([], 0, .halted) := by
  decide
/-- V116. -/
theorem test_load_in_running : cellAfter 3 (step { running 0 [] [0] with host := [.load [1, 2, 3, 4]] }) = some 0 := by decide
/-- R41: RESET ends a run. -/
theorem test_reset_in_running : shown (step { running 7 [1, 2] [7, 7] with host := [.reset] }) = some ([], 0, .ready) := by
  decide

/-! ### The observation of a run (10_state.md R47) -/

/-- A run that is one Halt: no word is delivered, and its status is HALTED. -/
theorem test_observes_halt : (running 4 [] [0]).Observes { emitted := fun _ => none, terminal := .halted } := by
  have hs : step (running 4 [] [0]) = .next { running 4 [] [0] with runState := .halted } := rfl
  have h1 : InRun (running 4 [] [0]) 1 { running 4 [] [0] with runState := .halted } :=
    ⟨hs, fun j hj => ⟨running 4 [] [0], by rw [Nat.lt_one_iff.1 hj]; rfl, rfl⟩⟩
  refine ⟨rfl, fun n w => Iff.intro (fun h => by cases h) ?_, ⟨1, _, h1, rfl⟩⟩
  rintro ⟨k, t, ht, hw⟩
  have none_delivered : ¬ ([] : List Int)[n]? = some w := by simp
  match k with
  | 0 => cases ht.1; exact absurd hw none_delivered
  | 1 => cases h1.state_unique ht; exact absurd hw none_delivered
  | k + 2 => exact absurd (ht.running_of_lt (by omega : 1 < k + 2) h1.1) (by decide)

/-- A block that is not started runs nothing, so not forever. -/
theorem test_ready_does_not_run_forever : ¬ RunsForever State.reset := fun h => by
  obtain ⟨t, ht, hr⟩ := h 0
  cases ht
  exact absurd hr (by decide)

/-- A run that RESET ends does not run forever (R41). -/
theorem test_reset_run_does_not_run_forever : ¬ RunsForever { running 0 [] [7, 0] with host := [.reset] } := fun h => by
  obtain ⟨t, ht, hr⟩ := h 1
  cases ht
  exact absurd hr (by decide)

/-! ### The arbiter, the byte form, the assembly text -/

/-- 20_memory.md R59. -/
theorem test_store_accesses : stepAccesses (running 15 [42] [17, 20]) =
    [⟨.opcodeFetch, 15⟩, ⟨.operandFetch, 16⟩, ⟨.storeWrite, 20⟩] := by decide
/-- 20_memory.md R53, by hand: -5 is FB hexadecimal in 8 bits, FFFB in 12 sign-extended to 16. -/
theorem test_serialise : serialise 8 (-5) = [0xFB#8] ∧ serialise 12 (-5) = [0xFB#8, 0xFF#8] ∧
    deserialise 12 [0xFB#8, 0xFF#8] = -5 := by decide
/-- The cell of a word of 16 bits has two bytes (log 16). -/
theorem test_toBytes : Memory.toBytes 16 [(3, 258), (5, 256)] = [(6, 2#8), (7, 1#8), (11, 1#8)] := by decide
/-- E1 and P1 in the text form. -/
theorem test_text_E1 : readProgram 32 "Push 1, Push 2, Add, Print, Halt".toList =
    some [.push 1, .push 2, .add, .print, .halt] := by decide
theorem test_text_lines : readProgram 32 "Push -0x ; no\n".toList = none ∧
    readProgram 32 "Push 0x1F ; a comment, ignored\n\nJump -1\n".toList = some [.push 31, .jump (-1)] := by decide
/-- R82: an operand that does not fit, a missing or extra operand, an unknown mnemonic. -/
theorem test_text_refuses : readProgram 8 "Push 128".toList = none ∧ readProgram 8 "Push".toList = none ∧
    readProgram 8 "Add 1".toList = none ∧ readProgram 8 "push 1".toList = none := by decide
/-- E1, the image. -/
theorem test_assemble_E1 : assemble [.push 1, .push 2, .add, .print, .halt] = [1, 1, 1, 2, 3, 16, 0] := by decide

/-! ### Witnesses: for every statement with hypotheses, states and operands that meet them, clause by clause -/

/-- A state of the invariant: RUNNING in the narrowest and fullest instance, with the least and the greatest word on the stack. -/
def full (ip : Int) (cells : List Int) : State := runningWith small ip [-128, 127] cells

/-- The record of a fault in a state that has one. -/
def faulted : State := faultWith (full 125 [1]) 4 1 126

theorem dispatching_of {s : State} (h : s.params.Legal ∧ s.runState = .running ∧ s.host = []) : Dispatching s :=
  ⟨h.1, h.2.1, .inl h.2.2⟩

theorem witness_ResetCommandLeavesResetValues :
    small.Legal ∧ { faulted with host := [.reset, .start] }.host = .reset :: [.start] := by decide

theorem witness_InvariantHoldsAtReset : small.Legal ∧ (cells 0).Legal ∧ (capped 1).Legal := by decide

theorem witness_StepKeepsInvariant :
    (full 124 [1, -128]).Inv ∧ step (full 124 [1, -128]) = .next { (full 124 [1, -128]) with
      stack := { word := -128, tag := false } :: (full 124 [1, -128]).stack, ip := 126 } := by
  refine ⟨by decide, rfl⟩

theorem witness_LegalInstanceAlwaysSteps : (full 0 []).params.Legal ∧ faulted.params.Legal := by decide

theorem witness_IllegalInstanceIsRefused :
    ¬ { small with memCap := 127 }.Legal ∧ ¬ { small with wordBits := 7, memCap := 0 }.Legal ∧ ¬ (capped 0).Legal := by decide

theorem witness_DecoderAcceptsExactlyTheMap :
    ((0 : Int) ≤ 0 ∧ (0 : Int) ≤ 18) ∧ ((0 : Int) ≤ 18 ∧ (18 : Int) ≤ 18) ∧ ¬ ((0 : Int) ≤ -1 ∧ (-1 : Int) ≤ 18) ∧
      ¬ ((0 : Int) ≤ 19 ∧ (19 : Int) ≤ 18) := by decide

theorem witness_ProgramSurvivesByteSerialisation :
    8 ≤ 8 ∧ ProgramWellFormed 8 [.push (-128), .store 127, .halt] := by decide

theorem witness_WordBytesAreLittleEndianSignExtended : 1 ≤ 1 ∧ IsWord 1 (-1) ∧ 0 < (1 + 7) / 8 ∧
    1 ≤ 9 ∧ IsWord 9 (-256) ∧ IsWord 9 255 ∧ 1 < (9 + 7) / 8 := by decide

theorem witness_FetchedInstructionsAreWellFormed :
    (full 124 [18, -128]).Inv ∧ fetch (full 124 [18, -128]) = .instr (.load (-128)) := by decide

theorem witness_StepRunsTheDecodedInstruction : Dispatching (full 125 [2]) ∧
    decode ((full 125 [2]).cellsFrom 125 2) = .ok (.pop, []) ∧ Dispatching (full 124 [7, -128]) ∧
    decode ((full 124 [7, -128]).cellsFrom 124 2) = .ok (.jump (-128), []) :=
  ⟨dispatching_of (by decide), by decide, dispatching_of (by decide), by decide⟩

theorem witness_DispatchStep_fetch_fails : Dispatching (full 126 []) ∧ ¬ Valid (full 126 []) 126 ∧
    Dispatching (full (-1) []) ∧ ¬ Valid (full (-1) []) (-1) :=
  ⟨dispatching_of (by decide), by decide, dispatching_of (by decide), by decide⟩

theorem witness_DispatchStep_invalid : Dispatching (full 125 [19]) ∧ Valid (full 125 [19]) 125 ∧
    ¬ (0 ≤ (full 125 [19]).mem.read 125 ∧ (full 125 [19]).mem.read 125 ≤ 18) :=
  ⟨dispatching_of (by decide), by decide⟩

theorem witness_DispatchStep_width1 : Dispatching (full 125 [3]) ∧ Valid (full 125 [3]) 125 ∧
    Opcode.add.id = (full 125 [3]).mem.read 125 ∧ Opcode.add.arity = 0 :=
  ⟨dispatching_of (by decide), by decide⟩

theorem witness_DispatchStep_width2 : Dispatching (full 124 [18, 5]) ∧ Valid (full 124 [18, 5]) 124 ∧
    Opcode.load.id = (full 124 [18, 5]).mem.read 124 ∧ Opcode.load.arity = 1 ∧ Valid (full 124 [18, 5]) (124 + 1) :=
  ⟨dispatching_of (by decide), by decide⟩

theorem witness_DispatchStep_operand_fails : Dispatching (full 125 [18]) ∧ Valid (full 125 [18]) 125 ∧
    Opcode.load.id = (full 125 [18]).mem.read 125 ∧ Opcode.load.arity = 1 ∧
      (full 125 [18]).ip = (full 125 [18]).params.memCap - 1 :=
  ⟨dispatching_of (by decide), by decide⟩

theorem witness_AdvanceCannotOverflowTheWord : (full 125 []).params.Legal ∧ Valid (full 125 []) (full 125 []).ip := by decide

/-- The nine lines of the list and none: each is the first that holds in some state. -/
theorem witness_StepReportsTheFirstConditionOfThePriorityList :
    Dispatching (full 125 [18]) ∧
    ([full 126 [], full 0 [19], full 125 [18], runningWith faulting 0 [5] [6], runningWith checking 0 [5] [15],
        running 0 [5, 0] [6], running 0 [5] [17, 32], runningWith faulting 0 [2147483647, 1] [3],
        runningWith (capped 1) 0 [5] [1, 1], full 0 [3]].map fun s =>
      ((priorityList s).find? PriorityLine.holds).map fun c => c.code.toNat) =
    [some 4, some 1, some 4, some 2, some 8, some 3, some 4, some 7, some 6, none] :=
  ⟨dispatching_of (by decide), by decide⟩

theorem witness_ZeroCellHalts : Dispatching (full 125 []) ∧ Valid (full 125 []) (full 125 []).ip ∧
    (full 125 []).mem.read (full 125 []).ip.toNat = 0 :=
  ⟨dispatching_of (by decide), by decide⟩

theorem witness_PushFollowsItsRule_last_cell : Dispatching (full 125 [1]) ∧ Valid (full 125 [1]) 125 ∧
    (full 125 [1]).ip = (full 125 [1]).params.memCap - 1 ∧ (full 125 [1]).mem.read 125 = 1 :=
  ⟨dispatching_of (by decide), by decide⟩

theorem witness_PushFollowsItsRule : (running 0 [1] []).params.stackCap ≠ some (running 0 [1] []).stack.length ∧
    (runningWith (capped 2) 0 [1] []).params.stackCap ≠ some 1 ∧
    (runningWith (capped 1) 0 [1] []).params.stackCap = some (runningWith (capped 1) 0 [1] []).stack.length := by decide

theorem witness_PopFollowsItsRule : (full 0 []).stack = { word := 127, tag := false } :: stackOf [-128] ∧
    State.reset.stack = [] := by decide

/-- In 8 bits: a result at each bound, one above and one below, under both policies; one entry is too few. -/
theorem witness_AddSubMulFollowTheirRules :
    (runningWith small 0 [1] []).params.Legal ∧ (runningWith small 0 [1] []).stack.length < 2 ∧
    (full 0 []).stack = { word := 127, tag := false } :: { word := -128, tag := false } :: [] ∧
    IsWord 8 (-128 + 127) ∧ IsWord 8 (-128) ∧ ¬ IsWord 8 (-128 - 127) ∧ ¬ IsWord 8 (127 + 1) ∧
    small.overflow = .wrap ∧ { small with overflow := .fault }.overflow = .fault ∧ { small with overflow := .fault }.Legal := by
  decide

/-- In 8 bits: a zero divisor, 7 / -2, and -128 / -1 = 128, the one quotient outside the word range. -/
theorem witness_DivFollowsItsRule : small.Legal ∧ (runningWith small 0 [1] []).stack.length < 2 ∧
    (runningWith small 0 [5, 0] []).stack = { word := 0, tag := false } :: { word := 5, tag := false } :: [] ∧
    TruncQuotient (-3) 7 (-2) ∧ IsWord 8 (-3) ∧ IsWord 8 (-128) ∧ IsWord 8 (-1) ∧ TruncQuotient 128 (-128) (-1) ∧ ¬ IsWord 8 128 ∧
    small.overflow = .wrap ∧ { small with overflow := .fault }.overflow = .fault := by decide

theorem witness_DivisionTruncatesTowardZero : (-2 : Int) ≠ 0 ∧ 1 ≤ 8 ∧ IsWord 8 (-128) ∧ IsWord 8 (-1) ∧ (-1 : Int) ≠ 0 ∧
    1 ≤ 1 ∧ IsWord 1 (-1) := by decide

theorem witness_WrapIsTheUniqueCongruentWord : 1 ≤ 1 ∧ IsWord 1 (-1) ∧ (2 ^ 1 : Int) ∣ -1 - 3 := by decide

theorem witness_WrapArithmeticIsTwosComplement : small.Legal ∧ small.overflow = .wrap ∧
    (full 0 []).stack = { word := 127, tag := false } :: { word := -128, tag := false } :: [] ∧
    IsWord 8 127 ∧ IsWord 8 (-128) ∧ (127 : Int) ≠ 0 := by decide

theorem witness_ConditionalJumpsFollowTheirRules : (running 0 [7] []).stack.length < 2 ∧
    (running 0 [4, 4] []).stack = { word := 4, tag := false } :: { word := 4, tag := false } :: [] ∧
    (running 0 [0, -1] []).stack = { word := -1, tag := false } :: { word := 0, tag := false } :: [] ∧
    ((4 : Int) = 4 ∧ ¬ (4 : Int) ≠ 4 ∧ ¬ (4 : Int) < 4 ∧ ¬ (4 : Int) > 4 ∧ (4 : Int) ≤ 4 ∧ (4 : Int) ≥ 4) ∧
    (¬ (-1 : Int) = 0 ∧ (-1 : Int) ≠ 0 ∧ (-1 : Int) < 0 ∧ (1 : Int) > 0 ∧ ¬ (1 : Int) ≤ 0 ∧ ¬ (-1 : Int) ≥ 0) := by decide

theorem witness_CallFollowsItsRule : (running 0 [9] []).params.stackCap ≠ some (running 0 [9] []).stack.length ∧
    (runningWith (capped 1) 0 [9] []).params.stackCap = some (runningWith (capped 1) 0 [9] []).stack.length := by decide

theorem witness_ReturnFollowsItsRule : State.reset.stack = [] ∧
    (runningWith checking 0 [12] []).stack = { word := 12, tag := false } :: [] ∧ checking.debugRaCheck = true ∧
    referenceParams.debugRaCheck = false ∧ ({ word := 12, tag := true } : StackEntry).tag = true := by decide

theorem witness_ReturnResumesAfterTheCall :
    (runningWith checking 10 [9] []).params.stackCap ≠ some 1 ∧
    exec (.call 20) (runningWith checking 10 [9] []) = .next { (runningWith checking 10 [9] []) with
      stack := { word := 12, tag := true } :: stackOf [9], ip := 20 } :=
  ⟨by decide, rfl⟩

theorem witness_PrintFollowsItsRule : State.reset.stack = [] ∧
    (running 0 [3] []).stack = { word := 3, tag := false } :: [] ∧ referenceParams.printConsumes = false ∧
    consuming.printConsumes = true := by decide

theorem witness_StoreFollowsItsRule : State.reset.stack = [] ∧ (running 0 [7] []).stack = { word := 7, tag := false } :: [] ∧
    ¬ Valid (running 0 [7] []) 32 ∧ ¬ Valid (running 0 [7] []) (-1) ∧ Valid (running 0 [7] []) 31 ∧ Valid (running 0 [7] []) 0 ∧
    (running 0 [7] [17, 31]).mem.wf := by decide

theorem witness_LoadFollowsItsRule : ¬ Valid (running 0 [1] []) 32 ∧ ¬ Valid (running 0 [1] []) (-1) ∧
    Valid (runningWith (capped 1) 0 [1] []) 31 ∧ (runningWith (capped 1) 0 [1] []).params.stackCap = some 1 ∧
    Valid (running 0 [1] []) 31 ∧ (running 0 [1] []).params.stackCap ≠ some 1 := by decide

theorem witness_InvalidTargetFaultsAtTheNextFetch : Dispatching (running 10 [3, 32] [15]) ∧
    exec .ret (running 10 [3, 32] [15]) = .next { (running 10 [3, 32] [15]) with stack := stackOf [3], ip := 32 } ∧
    ¬ Valid { (running 10 [3, 32] [15]) with stack := stackOf [3], ip := 32 } 32 :=
  ⟨dispatching_of (by decide), rfl, by decide⟩

theorem witness_StoreIsSeenByTheNextFetch : Dispatching (running 4 [16] [17, 6]) ∧ (running 4 [16] [17, 6]).mem.wf ∧
    (running 4 [16] [17, 6]).stack = { word := 16, tag := false } :: [] ∧ Valid (running 4 [16] [17, 6]) (4 + 2) ∧
    exec (.store (4 + 2)) (running 4 [16] [17, 6]) = .next { (running 4 [16] [17, 6]) with
      stack := [], ip := 6, mem := [(4, 17), (5, 6), (6, 16)] } ∧
    Opcode.print.id = 16 ∧ Opcode.print.arity = 0 ∧ ¬ ((0 : Int) ≤ 19 ∧ (19 : Int) ≤ 18) :=
  ⟨dispatching_of (by decide), by decide, by decide, by decide, rfl, rfl, rfl, by decide⟩

theorem witness_FrameOfEveryInstruction : exec (.store 31) (running 0 [7] []) = .next { (running 0 [7] []) with
    stack := [], ip := 2, mem := [(31, 7)] } ∧ (∀ k, Instr.pop ≠ .store k) ∧ Instr.pop ≠ .print ∧ Instr.pop ≠ .halt := by
  refine ⟨rfl, ?_, ?_, ?_⟩ <;> simp

theorem witness_FaultsArePrecise : Dispatching (full 125 [1]) ∧ step (full 125 [1]) = .next faulted ∧
    faulted.runState = .faulted :=
  ⟨dispatching_of (by decide), rfl, rfl⟩

theorem witness_InstructionsRaiseOnlyTheirConditions : (running 0 [5, 0] []).runState ≠ .faulted ∧
    exec .div (running 0 [5, 0] []) = .next (faultWith (running 0 [5, 0] []) 3 6 0) ∧ 3 ∈ ownCodes .div :=
  ⟨by decide, rfl, by decide⟩

theorem witness_CodesSixToEightNeedTheirParameters :
    Dispatching (runningWith (capped 1) 0 [5] [1, 1]) ∧ recorded (step (runningWith (capped 1) 0 [5] [1, 1])) = some (6, 0, 1, 0) ∧
    Dispatching (runningWith faulting 0 [2147483647, 1] [3]) ∧
    recorded (step (runningWith faulting 0 [2147483647, 1] [3])) = some (7, 0, 3, 0) ∧
    Dispatching (runningWith checking 0 [5] [15]) ∧ recorded (step (runningWith checking 0 [5] [15])) = some (8, 0, 15, 0) :=
  ⟨dispatching_of (by decide), by decide, dispatching_of (by decide), by decide, dispatching_of (by decide), by decide⟩

theorem witness_StackEffectsFollowTheTable : (running 0 [5] []).stack.length < needs .add ∧
    exec .add (running 0 [5] []) = .next (faultWith (running 0 [5] []) 2 3 0) ∧ (running 0 [5, 6] []).runState ≠ .faulted ∧
    exec .add (running 0 [5, 6] []) = .next { (running 0 [5, 6] []) with stack := stackOf [11], ip := 1 } :=
  ⟨by decide, rfl, by decide, rfl⟩

theorem witness_OnlyTheTopTwoEntriesAreRead :
    (stackOf [1, 2]).length = (stackOf [8, 9]).length ∧
    exec .sub { State.reset with stack := ⟨3, false⟩ :: ⟨10, false⟩ :: stackOf [1, 2] } =
      .next { State.reset with stack := ⟨7, false⟩ :: stackOf [1, 2], ip := 1 } :=
  ⟨by decide, rfl⟩

theorem witness_InstructionPointerMovesByRule : (running 10 [3, 99] []).runState ≠ .faulted ∧
    exec .ret (running 10 [3, 99] []) = .next { (running 10 [3, 99] []) with stack := stackOf [3], ip := 99 } :=
  ⟨by decide, rfl⟩

theorem witness_RunStateTransitions :
    step { State.reset with host := [.start] } = .next { State.reset with runState := .running } ∧
    step { running 0 [] [] with host := [.reset] } = .next State.reset ∧
    (∀ rest, (full 125 []).host ≠ .reset :: rest) ∧ fetch (full 125 []) = .instr .halt ∧
    step (full 125 []) = .next { full 125 [] with runState := .halted } ∧
    ((priorityList (full 125 [1])).any fun c => c.holds) = true ∧ step (full 125 [1]) = .next faulted ∧
    ((priorityList (full 124 [7, 5])).any fun c => c.holds) = false ∧
    step (full 124 [7, 5]) = .next { full 124 [7, 5] with ip := 5 } :=
  ⟨rfl, rfl, by rintro rest ⟨⟩, by decide, rfl, by decide, rfl, by decide, rfl⟩

theorem witness_StopStatesKeepEverythingUntilReset : faulted.params.Legal ∧ faulted.runState = .faulted ∧
    (∀ rest, { faulted with host := [.start] }.host ≠ .reset :: rest) ∧ { State.reset with runState := .halted }.runState = .halted :=
  ⟨by decide, rfl, by rintro rest ⟨⟩, rfl⟩

theorem witness_AccessesComeInTheArbitersOrder : Dispatching (running 15 [42] [17, 20]) ∧
    (⟨.storeWrite, 20⟩ : Access) ∈ stepAccesses (running 15 [42] [17, 20]) :=
  ⟨dispatching_of (by decide), by decide⟩

theorem witness_OnlyWritingAccessesChangeMemory : (full 124 [17, 125]).Inv ∧
    (∀ rest, (full 124 [17, 125]).host ≠ .reset :: rest) ∧
    (∀ y ∈ stepAccesses (full 124 [17, 125]), y.writes = true → y.addr ≠ (124 : Nat)) ∧
    { State.reset with host := [.load [1, 2]] }.Inv ∧
    (∀ y ∈ stepAccesses { State.reset with host := [.load [1, 2]] }, y.writes = true → y.addr ≠ (2 : Nat)) :=
  ⟨by decide, by rintro rest ⟨⟩, by decide, by decide, by decide⟩

theorem witness_StepReadsOnlyTheCellsItAccesses_load : Dispatching (full 124 [18, 3]) ∧ (full 124 [18, 3]).mem.wf ∧
    Memory.wf [(4, 77), (124, 18), (125, 3)] ∧ (∀ x ∈ stepAccesses (full 124 [18, 3]), x.writes = false →
      Memory.read [(4, 77), (124, 18), (125, 3)] x.addr.toNat = (full 124 [18, 3]).mem.read x.addr.toNat) ∧
    (∀ y ∈ stepAccesses (full 124 [18, 3]), y.writes = true → y.addr ≠ (4 : Nat)) :=
  ⟨dispatching_of (by decide), by decide⟩

/-- A Store to the first cell, where the two memories differ. -/
theorem witness_StepReadsOnlyTheCellsItAccesses_store : Dispatching (full 124 [17, 0]) ∧ (full 124 [17, 0]).mem.wf ∧
    Memory.wf [(0, 77), (124, 17)] ∧ (∀ x ∈ stepAccesses (full 124 [17, 0]), x.writes = false →
      Memory.read [(0, 77), (124, 17)] x.addr.toNat = (full 124 [17, 0]).mem.read x.addr.toNat) ∧
    (∃ y ∈ stepAccesses (full 124 [17, 0]), y.writes = true ∧ y.addr = (0 : Nat)) :=
  ⟨dispatching_of (by decide), by decide⟩

/-- An image as long as MEM_CAP and one a cell longer, in READY; and a LOAD outside READY. -/
theorem witness_LoadCommandFollowsItsRule :
    (cells 4).Legal ∧ (running 0 [] []).runState ≠ .ready ∧ (State.resetOf (cells 4)).runState = .ready ∧
    (State.resetOf (cells 4)).params.memCap < ([1, 1, 1, 2, 3] : List Int).length ∧
    ([1, 2, 3, 4] : List Int).length ≤ (State.resetOf (cells 4)).params.memCap ∧ (State.resetOf (cells 4)).mem.wf := by decide

theorem witness_StartCommandFollowsItsRule : small.Legal ∧ { State.reset with host := [.start] }.host = .start :: [] := by decide

theorem witness_IdleHostDoesNotDisturbTheBlock : { full 125 [] with host := [.idle, .reset] }.host = .idle :: [.reset] ∧
    step { full 125 [] with host := [] } = .next { full 125 [] with runState := .halted } :=
  ⟨rfl, rfl⟩

theorem witness_BootLeavesTheImageRunning : (cells 4).Legal ∧ ([1, 2, 3, 4] : List Int).length ≤ (cells 4).memCap ∧
    { faulted with params := cells 4, host := [.reset, .load [1, 2, 3, 4], .start] }.host =
      [.reset, .load [1, 2, 3, 4], .start] := by decide

theorem witness_StartWithoutLoadHaltsOrFaults : (cells 1).Legal ∧ 1 ≤ (cells 1).memCap ∧ (cells 0).Legal ∧
    (cells 0).memCap = 0 ∧ { faulted with host := [.reset, .start] }.host = [.reset, .start] := by decide

/-- Two states that differ in LOAD_STATUS and in a fault record left over, with the same memory. -/
theorem witness_ObservationDependsOnlyOnParametersAndMemory :
    (running 0 [] [1, 5]).params.Legal ∧ (running 0 [] [1, 5]).mem.wf ∧
    (running 0 [] [1, 5]) ≠ { running 0 [] [1, 5] with loadStatus := 5, faultRecord := faulted.faultRecord } ∧
    { running 0 [] [1, 5] with loadStatus := 5, faultRecord := faulted.faultRecord }.mem = (running 0 [] [1, 5]).mem := by decide

theorem witness_EveryRunHasOneObservation : (full 124 [7, 124]).params.Legal ∧ (full 124 [7, 124]).runState = .running ∧
    .reset ∉ (full 124 [7, 124]).host ∧ .reset ∉ { running 0 [3] [16] with host := [.idle, .start, .load [1]] }.host ∧
    emitted (runFor 2 (running 0 [3] [16])) = some [3] ∧ (shown (runFor 2 (running 0 [3] [16]))) = some ([3], 1, .halted) := by
  decide

theorem witness_CanonicalMemoriesWithEqualCellsAreEqual : Memory.wf [(0, 1), (31, -1)] ∧
    ∀ x, Memory.read [(0, 1), (31, -1)] x = Memory.read ((Memory.write [(31, -1)] 0 1).write 5 0) x :=
  ⟨by decide, fun _ => rfl⟩

/-- One Push with room for just that entry. -/
theorem witness_StackCapIsInvisibleWithinItsBound : 1 ≤ 1 ∧
    (∀ j u, j ≤ 1 → runFor j (withStackCap none (running 0 [] [1, 7])) = .next u → u.stack.length ≤ 1) ∧
    runFor 1 (withStackCap none (running 0 [] [1, 7])) = .next { running 0 [] [1, 7] with stack := stackOf [7], ip := 2 } := by
  refine ⟨le_rfl, fun j u hj h => ?_, rfl⟩
  match j with
  | 0 => cases h; decide
  | 1 => cases h; decide

theorem witness_JumpToItselfRunsForever : small.Legal ∧ (full 124 [7, 124]).runState = .running ∧ (full 124 [7, 124]).host = [] ∧
    Valid (full 124 [7, 124]) 124 ∧ Valid (full 124 [7, 124]) (124 + 1) ∧ (full 124 [7, 124]).mem.read 124 = 7 ∧
    (full 124 [7, 124]).mem.read (124 + 1) = 124 := by decide

theorem witness_OutputGrowsByOneWordPerPrint : (∀ rest, (running 0 [3] [16]).host ≠ .reset :: rest) ∧
    step (running 0 [3] [16]) = .next { running 0 [3] [16] with output := [3], ip := 1 } :=
  ⟨by rintro rest ⟨⟩, rfl⟩

end Sys2Proof.Tests
end

section
/-! The proof about RESET (10_state.md R38, R41). -/

namespace Sys2Proof.Machine

variable {s : State} {rest : List HostMove}

/-- A RESET command is the whole step of a legal instance, and its outcome depends on the parameters and the host's
later moves alone. -/
theorem step_of_host_reset (hl : s.params.Legal) (hr : s.host = .reset :: rest) :
    step s = .next { State.resetOf s.params with host := rest } := by
  rw [step_of_legal hl, hostStep, hr]
  rfl

/-- Every cell is 0 after reset (20_memory.md R50). -/
theorem State.resetOf_mem_read (p : Params) (a : Nat) : (State.resetOf p).mem.read a = 0 := Memory.read_nil a

/-- Settles O1: RESET answers `State.resetOf`, whose fields are R38's table. -/
theorem resetCommandLeavesResetValues : Obligations.ResetCommandLeavesResetValues :=
  fun s _ hl hr => ⟨_, step_of_host_reset hl hr, rfl, rfl, State.resetOf_mem_read s.params, rfl, rfl, rfl, rfl⟩

end Sys2Proof.Machine
end

section
/-! The proof about the dispatch step (20_memory.md R55, R56; 30_encoding.md R73, R76): what each check of the fetch answers,
and that a dispatch step is the fetch and then `runFetched`. -/

open Sys2Proof.Claims

namespace Sys2Proof.Machine

variable {s : State} {op : Opcode}

/-! ### What the decoder refuses, and what the two reads of the fetch answer -/

theorem decodeOpcode_eq_none {w : Int} (h : ¬ (0 ≤ w ∧ w ≤ 18)) : decodeOpcode w = none := by
  rw [Option.eq_none_iff_forall_ne_some]
  intro op hop
  obtain rfl := decodeOpcode_eq_some.1 hop
  exact h ⟨op.id_nonneg, op.id_le⟩

theorem State.memRead_of_valid {a : Int} (h : Valid s a) : s.memRead a = some (s.mem.read a.toNat) :=
  memRead_eq_some.2 ⟨validAddr_iff.2 h, rfl⟩

theorem State.memRead_of_not_valid {a : Int} (h : ¬ Valid s a) : s.memRead a = none :=
  memRead_eq_none.2 (Bool.eq_false_iff.2 fun hv => h (validAddr_iff.1 hv))

/-! ### The fetch, one equation per outcome -/

theorem fetch_of_not_valid_ip (h : ¬ Valid s s.ip) : fetch s = .raised .addressOutOfRange 0 s.ip := by
  simp only [fetch, State.memRead_of_not_valid h]

theorem fetch_of_invalid_opcode (hv : Valid s s.ip) (hw : ¬ (0 ≤ s.mem.read s.ip.toNat ∧ s.mem.read s.ip.toNat ≤ 18)) :
    fetch s = .raised .invalidOpcode (s.mem.read s.ip.toNat) 0 := by
  simp only [fetch, State.memRead_of_valid hv, decodeOpcode_eq_none hw]

theorem fetch_of_arity_zero (hv : Valid s s.ip) (hop : op.id = s.mem.read s.ip.toNat) (ha : op.arity = 0) :
    fetch s = .instr (op.instr 0) := by
  simp only [fetch, State.memRead_of_valid hv, ← hop, decodeOpcode_id, ha, if_true]

theorem fetch_of_arity_one (hv : Valid s s.ip) (hop : op.id = s.mem.read s.ip.toNat) (ha : op.arity = 1)
    (hk : Valid s (s.ip + 1)) : fetch s = .instr (op.instr (s.mem.read (s.ip + 1).toNat)) := by
  simp only [fetch, State.memRead_of_valid hv, ← hop, decodeOpcode_id, ha, one_ne_zero, if_false, State.memRead_of_valid hk]

theorem fetch_of_not_valid_operand (hv : Valid s s.ip) (hop : op.id = s.mem.read s.ip.toNat) (ha : op.arity = 1)
    (hk : ¬ Valid s (s.ip + 1)) : fetch s = .raised .addressOutOfRange op.id (s.ip + 1) := by
  simp only [fetch, State.memRead_of_valid hv, ← hop, decodeOpcode_id, ha, one_ne_zero, if_false,
    State.memRead_of_not_valid hk]

/-! ### The dispatch step -/

/-- The record of a raised condition is R186's. -/
theorem State.enterFault_eq_faultWith (s : State) (c : Condition) (o a : Int) :
    s.enterFault c o a = faultWith s c.code o a := rfl

/-- A host that gives no command lets the block take its dispatch step. -/
theorem hostStep_of_noCommand (h : NoCommand s) : hostStep s = dispatchStep (afterIdle s) := by
  obtain hs | ⟨rest, hs⟩ := h
  · have same : afterIdle s = s := by rw [afterIdle, hs, List.tail_nil, ← hs]
    rw [same, hostStep, hs]
  · rw [hostStep, afterIdle, hs, List.tail_cons]

/-- A dispatch step runs what the fetch finds; the host's moves are not read by the fetch. -/
theorem step_of_dispatching (h : Dispatching s) : step s = runFetched (afterIdle s) (fetch s) := by
  obtain ⟨legal, running, noCommand⟩ := h
  have fetch_afterIdle : fetch (afterIdle s) = fetch s := (Transparent.withHost s.host.tail).fetch s
  rw [step_of_legal legal, hostStep_of_noCommand noCommand, dispatchStep_running (s := afterIdle s) running,
    fetch_afterIdle]

/-- A fetch that raises makes the dispatch step end in that condition. -/
theorem step_of_fetch_raised (h : Dispatching s) {c : Condition} {o a : Int} (hf : fetch s = .raised c o a) :
    step s = .next (faultWith (afterIdle s) c.code o a) := by
  rw [step_of_dispatching h, hf, runFetched_raised, State.enterFault_eq_faultWith]

/-- A fetch that finds an instruction makes the dispatch step that instruction's meaning. -/
theorem step_of_fetch_instr (h : Dispatching s) {i : Instr} (hf : fetch s = .instr i) : step s = exec i (afterIdle s) := by
  rw [step_of_dispatching h, hf, runFetched_instr]

/-- Settles O13: each clause is the fetch's outcome under that clause's conditions; at ip = MEM_CAP - 1 the operand cell is
not valid. -/
theorem dispatchStepFetchesAndChecks : Obligations.DispatchStepFetchesAndChecks := by
  intro s h
  refine ⟨fun hip => step_of_fetch_raised h (fetch_of_not_valid_ip hip), fun hip =>
    ⟨fun hw => step_of_fetch_raised h (fetch_of_invalid_opcode hip hw), fun op hop => ⟨fun ha => ?_, fun ha hk => ?_,
      fun ha hlast => ?_⟩⟩⟩
  · exact step_of_fetch_instr h (fetch_of_arity_zero hip hop ha)
  · exact step_of_fetch_instr h (fetch_of_arity_one hip hop ha hk)
  · have hk : ¬ Valid s (s.ip + 1) := fun hk => by omega
    exact step_of_fetch_raised h (fetch_of_not_valid_operand hip hop ha hk)

end Sys2Proof.Machine
end

section
/-! The proofs about the encoding (30_encoding.md R73, R81): which words the decoder accepts, and that decoding an assembled
image gives back the program. -/

namespace Sys2Proof

open Laws

variable {i : Instr} {is : List Instr} {cells rest : List Int} {fuel : Nat} {w : Int}

/-! ### Which words are opcodes -/

theorem exists_decodeOpcode_eq_some (h : 0 ≤ w ∧ w ≤ 18) : ∃ op, decodeOpcode w = some op := by
  obtain ⟨nonneg, le⟩ := h
  interval_cases w <;> exact ⟨_, rfl⟩

/-- Settles O7: each word from 0 to 18 is read as some opcode, and the decoder reads an opcode only from its own id; an id
lies between 0 and 18. -/
theorem decoderAcceptsExactlyTheMap : Obligations.DecoderAcceptsExactlyTheMap :=
  fun _ => ⟨fun h => (exists_decodeOpcode_eq_some h).imp fun _ hop => ⟨hop, id_of_decodeOpcode hop⟩,
    Machine.decodeOpcode_eq_none⟩

/-! ### The cells of one instruction -/

/-- The encoding laws of PerInstr, for whichever instruction it is. -/
theorem encodingShape : ∀ i : Instr, EncodingShape.Statement i
  | .halt => EncodingShape.halt
  | .push k => EncodingShape.push k
  | .pop => EncodingShape.pop
  | .add => EncodingShape.add
  | .sub => EncodingShape.sub
  | .mul => EncodingShape.mul
  | .div => EncodingShape.div
  | .jump k => EncodingShape.jump k
  | .jumpIfEqual k => EncodingShape.jumpIfEqual k
  | .jumpIfNotEqual k => EncodingShape.jumpIfNotEqual k
  | .jumpIfLessThan k => EncodingShape.jumpIfLessThan k
  | .jumpIfGreaterThan k => EncodingShape.jumpIfGreaterThan k
  | .jumpIfLessThanOrEqual k => EncodingShape.jumpIfLessThanOrEqual k
  | .jumpIfGreaterThanOrEqual k => EncodingShape.jumpIfGreaterThanOrEqual k
  | .call k => EncodingShape.call k
  | .ret => EncodingShape.ret
  | .print => EncodingShape.print
  | .store k => EncodingShape.store k
  | .load k => EncodingShape.load k

theorem length_encode (i : Instr) : (encode i).length = 1 + i.opcode.arity := (encodingShape i).1

theorem decode_encode_append (i : Instr) (rest : List Int) : decode (encode i ++ rest) = .ok (i, rest) :=
  (encodingShape i).2 rest

/-! ### The cells of a program -/

theorem length_assemble (is : List Instr) : (assemble is).length = (is.map fun i => 1 + i.opcode.arity).sum := by
  induction is with
  | nil => rfl
  | cons i is ih => rw [assemble, List.length_append, length_encode, ih, List.map_cons, List.sum_cons]

theorem disassembleWith_nil (fuel : Nat) : disassembleWith fuel [] = .ok [] := by cases fuel <;> rfl

/-- An instruction decoded at the head of the cells comes first, before what the cells after it decode to. -/
theorem disassembleWith_succ_of_decode (head : decode cells = .ok (i, rest)) (tail : disassembleWith fuel rest = .ok is) :
    disassembleWith (fuel + 1) cells = .ok (i :: is) := by
  cases cells with
  | nil => cases head
  | cons w ws => simp only [disassembleWith, head, tail]

/-- As much fuel as the image has cells is enough: each instruction takes one unit of it and at least one cell. -/
theorem disassembleWith_assemble (enough : (assemble is).length ≤ fuel) : disassembleWith fuel (assemble is) = .ok is := by
  induction is generalizing fuel with
  | nil => exact disassembleWith_nil fuel
  | cons i is ih =>
    rw [assemble, List.length_append, length_encode] at enough
    obtain ⟨fuel, rfl⟩ := Nat.exists_eq_add_of_le' (show 1 ≤ fuel by omega)
    exact disassembleWith_succ_of_decode (decode_encode_append i (assemble is)) (ih (by omega))

theorem disassemble_assemble (is : List Instr) : disassemble (assemble is) = .ok is :=
  disassembleWith_assemble le_rfl

/-- Settles O8: both laws by induction on the program, an instruction being read back from its own cells whatever follows. -/
theorem disassemblingTheImageGivesTheProgram : Obligations.DisassemblingTheImageGivesTheProgram :=
  fun is => ⟨length_assemble is, disassemble_assemble is⟩

end Sys2Proof
end

section
/-! The proofs about the stack instructions (40_stack.md R100, R101): what the check for room answers, what Push at the last cell
raises, and the two rules. -/

open Sys2Proof.Claims

namespace Sys2Proof.Machine

variable {s : State} {op : Opcode} {body : Result}

/-! ### The check for room (10_state.md R25) -/

theorem needRoom_of_full (h : s.params.stackCap = some s.stack.length) :
    needRoom op s body = raise .stackOverflow op.id 0 s :=
  if_pos (stackFull_iff.2 h)

theorem needRoom_of_room (h : s.params.stackCap ≠ some s.stack.length) : needRoom op s body = body :=
  if_neg (mt stackFull_iff.1 h)

/-! ### The raise as a next state (60_exceptions.md R186) -/

theorem raise_eq_next_faultWith (c : Condition) (o a : Int) (s : State) : raise c o a s = .next (faultWith s c.code o a) := by
  rw [raise, State.enterFault_eq_faultWith]

/-! ### Push -/

/-- In the last cell Push has no cell for its operand: the operand fetch raises, at address MEM_CAP. -/
theorem step_of_push_at_last_cell (h : Dispatching s) (hv : Valid s s.ip) (hlast : s.ip = s.params.memCap - 1)
    (hw : s.mem.read s.ip.toNat = 1) : step s = .next (faultWith (afterIdle s) 4 1 s.params.memCap) := by
  obtain ⟨-, clausesOfValid⟩ := dispatchStepFetchesAndChecks s h
  obtain ⟨-, clausesOfOpcode⟩ := clausesOfValid hv
  obtain ⟨-, -, operandFetchRaises⟩ := clausesOfOpcode .push hw.symm
  have operandCell : s.ip + 1 = s.params.memCap := by omega
  rw [operandFetchRaises rfl hlast, operandCell]
  rfl

/-- Settles O17: at the last cell the operand fetch raises; once Push is fetched the check for room decides. -/
theorem pushFollowsItsRule : Obligations.PushFollowsItsRule := by
  refine ⟨fun s => step_of_push_at_last_cell, fun k s => ⟨rfl, fun room => ?_, fun full => ?_⟩⟩
  · rw [exec_push, needRoom_of_room room]
    rfl
  · rw [exec_push, needRoom_of_full full, raise_eq_next_faultWith]
    rfl

/-! ### Pop -/

/-- Settles O18: the check for one entry decides, and the entry itself, its tag included, is not read. -/
theorem popFollowsItsRule : Obligations.PopFollowsItsRule := by
  refine ⟨rfl, fun s => ⟨fun empty => ?_, fun a rest hs => ?_⟩⟩
  · rw [exec_pop, needOne_nil empty, raise_eq_next_faultWith]
    rfl
  · rw [exec_pop, needOne_cons hs, State.drop, hs]
    rfl

end Sys2Proof.Machine
end

section
/-! The proofs about the arithmetic instructions (41_arithmetic.md R110 to R115): the wrapped result, how `finishArith` ends,
the rule that Add, Sub and Mul share, and the truncated quotient of Div. -/

open Sys2Proof.Claims

namespace Sys2Proof.Machine

variable {s : State} {op : Opcode} {a b : StackEntry} {rest : List StackEntry} {W : Nat} {x : Int}

/-! ### `wrapW(x)`, the word congruent to x (00_scope.md R11) -/

theorem one_le_wordBits_of_legal {p : Params} (h : p.Legal) : 1 ≤ p.wordBits := by
  obtain ⟨eight_le, -⟩ := h
  omega

/-- The word range is the range of the balanced remainder by 2^W. -/
theorem isWord_wrapW (hW : 1 ≤ W) (x : Int) : IsWord W (wrapW W x) := by
  have double := Nat.two_pow_pred_mul_two hW
  have lower := Int.le_bmod (x := x) (Nat.two_pow_pos W)
  have upper := Int.bmod_lt (x := x) (Nat.two_pow_pos W)
  unfold wrapW IsWord wordMin wordMax
  omega

theorem dvd_wrapW_sub (W : Nat) (x : Int) : (2 ^ W : Int) ∣ wrapW W x - x :=
  mod_cast Int.dvd_bmod_sub_self (x := x) (m := 2 ^ W)

theorem wrapW_of_isWord (hW : 1 ≤ W) (hx : IsWord W x) : wrapW W x = x := by
  have double := Nat.two_pow_pred_mul_two hW
  unfold IsWord wordMin wordMax at hx
  apply Int.bmod_eq_of_le_mul_two <;> omega

/-! ### How `finishArith` ends (41_arithmetic.md R114) -/

theorem overflow_faults_iff :
    (overflows s.params.wordBits x && s.params.overflow == .fault) = true ↔
      ¬ IsWord s.params.wordBits x ∧ s.params.overflow = .fault := by
  rw [Bool.and_eq_true, overflows_iff, beq_iff_eq]

theorem finishArith_of_fault (hx : ¬ IsWord s.params.wordBits x) (hp : s.params.overflow = .fault) :
    finishArith op x s = .next (faultWith s 7 op.id 0) := by
  rw [finishArith, if_pos (overflow_faults_iff.2 ⟨hx, hp⟩), raise_eq_next_faultWith]
  rfl

/-- Where no overflow faults, the wrapped result replaces both operands, whatever their tags. -/
theorem finishArith_of_not_fault (hs : s.stack = a :: b :: rest)
    (h : ¬ (¬ IsWord s.params.wordBits x ∧ s.params.overflow = .fault)) :
    finishArith op x s = .next { s with
      stack := { word := wrapW s.params.wordBits x, tag := false } :: rest, ip := s.ip + op.width } := by
  rw [finishArith, if_neg (mt overflow_faults_iff.1 h), State.drop, hs]
  rfl

/-- R114 for an instruction of width 1: the result itself where it is a word, else what the policy says. -/
theorem finishArith_follows_policy (legal : s.params.Legal) (hwidth : op.width = 1) (hs : s.stack = a :: b :: rest)
    (x : Int) :
    (IsWord s.params.wordBits x →
      finishArith op x s = .next { s with stack := { word := x, tag := false } :: rest, ip := s.ip + 1 }) ∧
    (¬ IsWord s.params.wordBits x → s.params.overflow = .wrap →
      ∃ v, IsWord s.params.wordBits v ∧ (2 ^ s.params.wordBits : Int) ∣ v - x ∧
        finishArith op x s = .next { s with stack := { word := v, tag := false } :: rest, ip := s.ip + 1 }) ∧
    (¬ IsWord s.params.wordBits x → s.params.overflow = .fault →
      finishArith op x s = .next (faultWith s 7 op.id 0)) := by
  have hW := one_le_wordBits_of_legal legal
  refine ⟨fun hx => ?_, fun _ wrap => ⟨wrapW s.params.wordBits x, isWord_wrapW hW x, dvd_wrapW_sub _ x, ?_⟩,
    finishArith_of_fault⟩
  · rw [finishArith_of_not_fault hs fun h => h.1 hx, wrapW_of_isWord hW hx, hwidth, Nat.cast_one]
  · rw [finishArith_of_not_fault hs (by simp [wrap]), hwidth, Nat.cast_one]

/-- Below two entries the check for operands raises, whatever would be computed from them. -/
theorem needTwo_short_eq_faultWith (h : s.stack.length < 2) (body : Int → Int → Result) :
    needTwo op s body = .next (faultWith s 2 op.id 0) := by
  rw [needTwo_short h, raise_eq_next_faultWith]
  rfl

/-! ### Add, Sub and Mul -/

/-- The shared rule holds of an instruction of width 1 that takes two operands and finishes with `f` of them. -/
theorem arithRule_of_exec {i : Instr} {f : Int → Int → Int} (hcells : encode i = [op.id]) (hwidth : op.width = 1)
    (hexec : ∀ s, exec i s = needTwo op s fun a b => finishArith op (f b a) s) : ArithRule i op.id f := by
  refine ⟨hcells, fun s legal => ⟨fun short => ?_, fun a b rest hs => ?_⟩⟩
  · rw [hexec, needTwo_short_eq_faultWith short]
  · rw [hexec, needTwo_cons hs]
    exact finishArith_follows_policy legal hwidth hs (f b.word a.word)

/-- Settles O19: each of the three takes two operands and finishes with its own operation. -/
theorem addSubMulFollowTheirRules : Obligations.AddSubMulFollowTheirRules :=
  ⟨arithRule_of_exec (op := .add) rfl rfl fun _ => exec_add, arithRule_of_exec (op := .sub) rfl rfl fun _ => exec_sub,
    arithRule_of_exec (op := .mul) rfl rfl fun _ => exec_mul⟩

/-! ### The truncated quotient (41_arithmetic.md R115) -/

theorem truncQuotient_truncDiv (b a : Int) : TruncQuotient (truncDiv b a) b a := by
  refine ⟨Int.natAbs_tdiv b a, ?_⟩
  rw [truncDiv, ← Int.sign_eq_neg_one_iff_neg, Int.sign_tdiv]
  rcases lt_or_ge b.natAbs a.natAbs with smaller | larger
  · simp [smaller]
  · rw [if_neg (not_lt.2 larger), ← Int.sign_mul, Int.sign_eq_neg_one_iff_neg, mul_neg_iff, or_comm, and_iff_left larger]

/-- A quotient's magnitude and sign determine it. -/
theorem truncQuotient_unique {p q b a : Int} (hp : TruncQuotient p b a) (hq : TruncQuotient q b a) : p = q := by
  have magnitude : p.natAbs = q.natAbs := hp.1.trans hq.1.symm
  have sign : p < 0 ↔ q < 0 := hp.2.trans hq.2.symm
  omega

/-- A quotient is no larger than its dividend, so only 2^(W-1) is no word, and only a divisor of magnitude 1 reaches it. -/
theorem operands_of_truncQuotient_not_isWord {q b a : Int} (hq : TruncQuotient q b a) (hb : IsWord W b)
    (hqW : ¬ IsWord W q) : b = -(2 ^ (W - 1) : Nat) ∧ a = -1 := by
  obtain ⟨magnitude, sign⟩ := hq
  have le_dividend : b.natAbs / a.natAbs ≤ b.natAbs := Nat.div_le_self _ _
  have bound_pos := Nat.two_pow_pos (W - 1)
  unfold IsWord wordMin wordMax at hb hqW
  have hbMin : b = -(2 ^ (W - 1) : Nat) := by omega
  have quotient_eq : b.natAbs / a.natAbs = b.natAbs := by omega
  have divisor_one : a.natAbs = 1 := (Nat.div_eq_self.1 quotient_eq).resolve_left (by omega)
  exact ⟨hbMin, by omega⟩

/-! ### Div -/

theorem exec_div_of_zero (hs : s.stack = a :: b :: rest) (ha : a.word = 0) :
    exec .div s = .next (faultWith s 3 6 0) := by
  rw [exec_div, needTwo_cons hs, if_pos ha, raise_eq_next_faultWith]
  rfl

theorem exec_div_of_ne_zero (hs : s.stack = a :: b :: rest) (ha : a.word ≠ 0) :
    exec .div s = finishArith .div (truncDiv b.word a.word) s := by
  rw [exec_div, needTwo_cons hs, if_neg ha]

/-- Settles O20: the checks for two operands and for a zero divisor decide, then the quotient, which is `truncDiv`'s, finishes
by the overflow policy as in the shared rule. -/
theorem divFollowsItsRule : Obligations.DivFollowsItsRule := by
  refine ⟨rfl, fun s legal => ⟨fun short => ?_, fun a b rest hs => ⟨exec_div_of_zero hs, fun ha q hq =>
    ⟨fun hb _ => operands_of_truncQuotient_not_isWord hq hb, ?_⟩⟩⟩⟩
  · rw [exec_div, needTwo_short_eq_faultWith short]
    rfl
  · obtain rfl := truncQuotient_unique (truncQuotient_truncDiv b.word a.word) hq
    rw [exec_div_of_ne_zero hs ha]
    exact finishArith_follows_policy legal rfl hs (truncDiv b.word a.word)

end Sys2Proof.Machine
end

section
/-! The proofs about control transfer (42_control.md R130 to R139): the rule the six conditional jumps share, how Call and Return
end, and the four rules. -/

open Sys2Proof.Claims

namespace Sys2Proof.Machine

variable {s : State} {op : Opcode} {r : Comparison} {k : Int} {a b : StackEntry} {rest : List StackEntry}

/-! ### Jump -/

/-- Settles O24: Jump sets `ip` to its operand, reading nothing else of the state. -/
theorem jumpFollowsItsRule : Obligations.JumpFollowsItsRule :=
  fun _ _ => ⟨rfl, exec_jump⟩

/-! ### The six conditional jumps (42_control.md R131) -/

theorem jumpIf_of_holds (hs : s.stack = a :: b :: rest) (h : r.holds a.word b.word = true) :
    jumpIf op r k s = .next { s with stack := rest, ip := k } := by
  rw [jumpIf, needTwo_cons hs, if_pos h, State.drop, hs]
  rfl

theorem jumpIf_of_not_holds (hs : s.stack = a :: b :: rest) (h : ¬ r.holds a.word b.word = true) :
    jumpIf op r k s = .next { s with stack := rest, ip := s.ip + op.width } := by
  rw [jumpIf, needTwo_cons hs, if_neg h, State.drop, hs]
  rfl

/-- The shared rule holds of an instruction of width 2 that jumps on a comparison deciding `rel`. -/
theorem jumpRule_of_exec {i : Int → Instr} {rel : Int → Int → Prop} (hcells : ∀ k, encode (i k) = [op.id, k])
    (hwidth : op.width = 2) (hrel : ∀ a b, r.holds a b = true ↔ rel a b) (hexec : ∀ k s, exec (i k) s = jumpIf op r k s) :
    JumpRule i op.id rel := by
  refine fun k s => ⟨hcells k, fun short => ?_, fun a b rest hs => ⟨fun taken => ?_, fun notTaken => ?_⟩⟩
  · rw [hexec, jumpIf, needTwo_short_eq_faultWith short]
  · rw [hexec, jumpIf_of_holds hs ((hrel _ _).2 taken)]
  · rw [hexec, jumpIf_of_not_holds hs (mt (hrel _ _).1 notTaken), hwidth, Nat.cast_ofNat]

/-- Settles O25: each of the six jumps on its own comparison, which decides its relation. -/
theorem conditionalJumpsFollowTheirRules : Obligations.ConditionalJumpsFollowTheirRules :=
  ⟨jumpRule_of_exec (op := .jumpIfEqual) (r := .equal)
      (fun _ => rfl) rfl (fun _ _ => decide_eq_true_iff) fun _ _ => exec_jumpIfEqual,
    jumpRule_of_exec (op := .jumpIfNotEqual) (r := .notEqual)
      (fun _ => rfl) rfl (fun _ _ => decide_eq_true_iff) fun _ _ => exec_jumpIfNotEqual,
    jumpRule_of_exec (op := .jumpIfLessThan) (r := .lessThan)
      (fun _ => rfl) rfl (fun _ _ => decide_eq_true_iff) fun _ _ => exec_jumpIfLessThan,
    jumpRule_of_exec (op := .jumpIfGreaterThan) (r := .greaterThan)
      (fun _ => rfl) rfl (fun _ _ => decide_eq_true_iff) fun _ _ => exec_jumpIfGreaterThan,
    jumpRule_of_exec (op := .jumpIfLessThanOrEqual) (r := .lessThanOrEqual)
      (fun _ => rfl) rfl (fun _ _ => decide_eq_true_iff) fun _ _ => exec_jumpIfLessThanOrEqual,
    jumpRule_of_exec (op := .jumpIfGreaterThanOrEqual) (r := .greaterThanOrEqual)
      (fun _ => rfl) rfl (fun _ _ => decide_eq_true_iff) fun _ _ => exec_jumpIfGreaterThanOrEqual⟩

/-! ### Call -/

theorem exec_call_of_room (h : s.params.stackCap ≠ some s.stack.length) :
    exec (.call k) s =
      .next { s with stack := { word := s.ip + 2, tag := s.params.debugRaCheck } :: s.stack, ip := k } := by
  rw [exec_call, needRoom_of_room h]
  rfl

theorem exec_call_of_full (h : s.params.stackCap = some s.stack.length) :
    exec (.call k) s = .next (faultWith s 6 14 0) := by
  rw [exec_call, needRoom_of_full h, raise_eq_next_faultWith]
  rfl

/-- Settles O26: the check for room decides; the pushed entry is `ip + 2` with DEBUG_RA_CHECK as its tag. -/
theorem callFollowsItsRule : Obligations.CallFollowsItsRule :=
  fun _ _ => ⟨rfl, exec_call_of_room, exec_call_of_full⟩

/-! ### Return -/

/-- When Return raises BadReturnAddress (42_control.md R139). -/
theorem badReturnAddress_iff :
    (s.params.debugRaCheck && !a.tag) = true ↔ s.params.debugRaCheck = true ∧ a.tag = false := by
  rw [Bool.and_eq_true, Bool.not_eq_true']

theorem exec_ret_of_empty (h : s.stack = []) : exec .ret s = .next (faultWith s 2 15 0) := by
  rw [exec_ret, needOne_nil h, raise_eq_next_faultWith]
  rfl

theorem exec_ret_of_untagged (hs : s.stack = a :: rest) (hcheck : s.params.debugRaCheck = true) (htag : a.tag = false) :
    exec .ret s = .next (faultWith s 8 15 0) := by
  rw [exec_ret, needOne_cons hs, if_pos (badReturnAddress_iff.2 ⟨hcheck, htag⟩), raise_eq_next_faultWith]
  rfl

theorem exec_ret_of_returnAddress (hs : s.stack = a :: rest) (h : s.params.debugRaCheck = false ∨ a.tag = true) :
    exec .ret s = .next { s with stack := rest, ip := a.word } := by
  have passes : ¬ (s.params.debugRaCheck = true ∧ a.tag = false) := by
    rwa [not_and_or, Bool.not_eq_true, Bool.not_eq_false]
  rw [exec_ret, needOne_cons hs, if_neg (mt badReturnAddress_iff.1 passes), State.drop, hs]
  rfl

/-- Settles O27: the check for one entry decides, then the check of its tag; an entry that passes both is the next `ip`. -/
theorem returnFollowsItsRule : Obligations.ReturnFollowsItsRule :=
  ⟨rfl, fun _ => ⟨exec_ret_of_empty, fun _ _ hs => ⟨exec_ret_of_untagged hs, exec_ret_of_returnAddress hs⟩⟩⟩

end Sys2Proof.Machine
end

section
/-! The proofs about the output instruction (43_print.md R150, R151): how Print ends, and its rule. -/

open Sys2Proof.Claims

namespace Sys2Proof.Machine

variable {s : State} {a : StackEntry} {rest : List StackEntry}

theorem exec_print_of_empty (h : s.stack = []) : exec .print s = .next (faultWith s 2 16 0) := by
  rw [exec_print, needOne_nil h, raise_eq_next_faultWith]
  rfl

/-- Where PRINT_CONSUMES is false, Print peeks: the stack stays as it is. -/
theorem exec_print_of_keeps (hs : s.stack = a :: rest) (h : s.params.printConsumes = false) :
    exec .print s = .next { s with output := s.output ++ [a.word], ip := s.ip + 1 } := by
  rw [exec_print, needOne_cons hs, if_neg (ne_true_of_eq_false h)]
  rfl

/-- Where PRINT_CONSUMES is true, the emitted entry leaves the stack. -/
theorem exec_print_of_consumes (hs : s.stack = a :: rest) (h : s.params.printConsumes = true) :
    exec .print s = .next { s with output := s.output ++ [a.word], stack := rest, ip := s.ip + 1 } := by
  rw [exec_print, needOne_cons hs, if_pos h, State.drop, State.emit_stack, hs]
  rfl

/-- Settles O29: the check for one entry decides; the emitted word is the top's, and PRINT_CONSUMES decides what becomes of the
entry. -/
theorem printFollowsItsRule : Obligations.PrintFollowsItsRule :=
  ⟨rfl, fun _ => ⟨exec_print_of_empty, fun _ _ hs => ⟨exec_print_of_keeps hs, exec_print_of_consumes hs⟩⟩⟩

end Sys2Proof.Machine
end

section
/-! The proofs about the memory instructions (44_load_store.md R160, R161): what the check of the address answers, how Store and
Load end, and the two rules. -/

open Sys2Proof.Claims

namespace Sys2Proof.Machine

variable {s : State} {op : Opcode} {body : Result} {k : Int} {a : StackEntry} {rest : List StackEntry}

/-! ### The check of the address (20_memory.md R51) -/

theorem needAddr_of_valid (h : Valid s k) : needAddr op k s body = body :=
  if_pos (validAddr_iff.2 h)

theorem needAddr_of_not_valid (h : ¬ Valid s k) : needAddr op k s body = raise .addressOutOfRange op.id k s :=
  if_neg (mt validAddr_iff.1 h)

/-! ### Store -/

theorem exec_store_of_empty (h : s.stack = []) : exec (.store k) s = .next (faultWith s 2 17 0) := by
  rw [exec_store, needOne_nil h, raise_eq_next_faultWith]
  rfl

theorem exec_store_of_not_valid (hs : s.stack = a :: rest) (hk : ¬ Valid s k) :
    exec (.store k) s = .next (faultWith s 4 17 k) := by
  rw [exec_store, needOne_cons hs, needAddr_of_not_valid hk, raise_eq_next_faultWith]
  rfl

theorem exec_store_of_valid (hs : s.stack = a :: rest) (hk : Valid s k) :
    exec (.store k) s = .next { s with stack := rest, mem := s.mem.write k.toNat a.word, ip := s.ip + 2 } := by
  rw [exec_store, needOne_cons hs, needAddr_of_valid hk, State.drop, hs]
  rfl

/-- `Memory.read_write` at a cell named by a nonnegative operand word. -/
theorem Memory.read_write_toNat {m : Memory} (h : m.wf) (hk : 0 ≤ k) (v : Int) (x : Nat) :
    (m.write k.toNat v).read x = if (x : Int) = k then v else m.read x := by
  have sameCell : x = k.toNat ↔ (x : Int) = k := by omega
  simp only [Memory.read_write h, sameCell]

/-- Settles O30: the check for one entry decides, then the check of the address; a Store that passes both writes the top's word
to cell k, and the write is read back at k alone. -/
theorem storeFollowsItsRule : Obligations.StoreFollowsItsRule :=
  fun _ _ => ⟨rfl, exec_store_of_empty, fun a _ hs => ⟨exec_store_of_not_valid hs, fun hk hm =>
    ⟨_, exec_store_of_valid hs hk, Memory.read_write_toNat hm hk.1 a.word⟩⟩⟩

/-! ### Load -/

theorem exec_load_of_not_valid (hk : ¬ Valid s k) : exec (.load k) s = .next (faultWith s 4 18 k) := by
  simp only [exec_load, State.memRead_of_not_valid hk, raise_eq_next_faultWith]
  rfl

/-- At a valid address only the check for room is left, and the word to push is cell k's. -/
theorem exec_load_of_valid (hk : Valid s k) :
    exec (.load k) s = needRoom .load s (.next ((s.push (s.mem.read k.toNat)).advance .load)) := by
  simp only [exec_load, State.memRead_of_valid hk]

theorem exec_load_of_full (hk : Valid s k) (full : s.params.stackCap = some s.stack.length) :
    exec (.load k) s = .next (faultWith s 6 18 0) := by
  rw [exec_load_of_valid hk, needRoom_of_full full, raise_eq_next_faultWith]
  rfl

theorem exec_load_of_room (hk : Valid s k) (room : s.params.stackCap ≠ some s.stack.length) :
    exec (.load k) s =
      .next { s with stack := { word := s.mem.read k.toNat, tag := false } :: s.stack, ip := s.ip + 2 } := by
  rw [exec_load_of_valid hk, needRoom_of_room room]
  rfl

/-- Settles O31: the check of the address decides, then the check for room. -/
theorem loadFollowsItsRule : Obligations.LoadFollowsItsRule :=
  fun _ _ => ⟨rfl, exec_load_of_not_valid, exec_load_of_full, exec_load_of_room⟩

end Sys2Proof.Machine
end

section
/-! The proof about the system instruction (45_halt.md R170): Halt's rule. -/

open Sys2Proof.Claims

namespace Sys2Proof.Machine

/-- Settles O32: Halt's meaning makes no check, and `State.halt` sets RUN_STATE alone. -/
theorem haltFollowsItsRule : Obligations.HaltFollowsItsRule :=
  ⟨rfl, fun _ => exec_halt⟩

end Sys2Proof.Machine
end

section
/-! The proof about the priority list (60_exceptions.md R183, R186): a check of the model is a line of the list, so the three
checks of the fetch are its first three lines, and each instruction's own checks are those of the other six that can hold for
its opcode. An instruction's case split follows its checks; in each branch its rule gives the outcome. -/

open Sys2Proof.Claims

namespace Sys2Proof.Machine

/-! ### What it is to report the first line that holds -/

/-- The outcome `r` in `s` is the fault of the first of `lines` that holds, and a next state not FAULTED if none holds. -/
def Reports (lines : List PriorityLine) (s : State) (r : Result) : Prop :=
  ∃ t, r = .next t ∧
    match lines.find? PriorityLine.holds with
    | some c => t = faultWith s c.code c.opcode c.addr
    | none => t.runState ≠ .faulted

/-- The last six lines of R183's list, which the instruction itself tests, for the opcode word `w` and the operand word `k`. -/
def instrLines (s : State) (w k : Int) : List PriorityLine :=
  let a := (s.stack.head?.map StackEntry.word).getD 0
  let b := (s.stack.tail.head?.map StackEntry.word).getD 0
  [ { holds := decide (s.stack.length < needsOfId w), code := 2, opcode := w, addr := 0 },
    { holds := decide (w = 15 ∧ s.params.debugRaCheck = true ∧ s.stack.head?.map StackEntry.tag = some false),
      code := 8, opcode := w, addr := 0 },
    { holds := decide (w = 6 ∧ a = 0), code := 3, opcode := w, addr := 0 },
    { holds := decide ((w = 17 ∨ w = 18) ∧ ¬ Valid s k), code := 4, opcode := w, addr := k },
    { holds := decide (w ∈ ([3, 4, 5, 6] : List Int) ∧ s.params.overflow = .fault ∧
        ¬ IsWord s.params.wordBits (arithResult w b a)), code := 7, opcode := w, addr := 0 },
    { holds := decide (w ∈ ([1, 14, 18] : List Int) ∧ s.params.stackCap = some s.stack.length),
      code := 6, opcode := w, addr := 0 } ]

/-- The list is the three checks of the fetch and then the instruction's lines, for the words at `ip` and `ip + 1`. -/
theorem priorityList_eq (s : State) :
    priorityList s =
      { holds := decide (¬ Valid s s.ip), code := 4, opcode := 0, addr := s.ip } ::
      { holds := decide (¬ (0 ≤ s.mem.read s.ip.toNat ∧ s.mem.read s.ip.toNat ≤ 18)), code := 1,
        opcode := s.mem.read s.ip.toNat, addr := 0 } ::
      { holds := decide (s.mem.read s.ip.toNat ∈ ([1, 7, 8, 9, 10, 11, 12, 13, 14, 17, 18] : List Int) ∧
          ¬ Valid s (s.ip + 1)), code := 4, opcode := s.mem.read s.ip.toNat, addr := s.ip + 1 } ::
      instrLines s (s.mem.read s.ip.toNat) (s.mem.read (s.ip + 1).toNat) := rfl

section
variable {s t : State} {r : Result} {lines : List PriorityLine} {op : Opcode} {k : Int}

/-- A line is a check: its fault where its condition holds, else what the lines after it report. -/
theorem reports_cons {p : Prop} [Decidable p] {code : BitVec 4} {opcode addr : Int}
    (raises : p → r = .next (faultWith s code opcode addr)) (passes : ¬ p → Reports lines s r) :
    Reports ({ holds := decide p, code := code, opcode := opcode, addr := addr } :: lines) s r := by
  by_cases h : p
  · exact ⟨_, raises h, by simp [h]⟩
  · simpa [Reports, h] using passes h

theorem reports_of_none (h : lines.find? PriorityLine.holds = none) (ht : t.runState ≠ .faulted) :
    Reports lines s (.next t) :=
  ⟨_, rfl, by rwa [h]⟩

/-! ### The checks for operands are the line of StackUnderflow -/

theorem reports_underflow (h : s.stack.length < needsOfId op.id) :
    Reports (instrLines s op.id k) s (raise .stackUnderflow op.id 0 s) :=
  reports_cons (fun _ => rfl) fun enough => absurd h enough

theorem reports_needOne {body : StackEntry → Result} (one : needsOfId op.id = 1)
    (h : ∀ a rest, s.stack = a :: rest → Reports (instrLines s op.id k) s (body a)) :
    Reports (instrLines s op.id k) s (needOne op s body) := by
  cases hs : s.stack with
  | nil =>
    rw [needOne_nil hs]
    exact reports_underflow (by simp [hs, one])
  | cons a rest =>
    rw [needOne_cons hs]
    exact h a rest hs

theorem reports_needTwo {body : Int → Int → Result} (two : needsOfId op.id = 2)
    (h : ∀ a b rest, s.stack = a :: b :: rest → Reports (instrLines s op.id k) s (body a.word b.word)) :
    Reports (instrLines s op.id k) s (needTwo op s body) := by
  have underflow (short : s.stack.length < 2) : Reports (instrLines s op.id k) s (needTwo op s body) := by
    rw [needTwo_short short]
    exact reports_underflow (two ▸ short)
  match hs : s.stack with
  | [] => exact underflow (by simp [hs])
  | [_] => exact underflow (by simp [hs])
  | a :: b :: rest =>
    rw [needTwo_cons hs]
    exact h a b rest hs

/-! ### Instructions that need no entry -/

theorem reports_halt : Reports (instrLines s 0 k) s (exec .halt s) := by
  simp [Reports, instrLines, needsOfId, exec_halt]

theorem reports_jump (running : s.runState = .running) : Reports (instrLines s 7 k) s (exec (.jump k) s) := by
  simp [Reports, instrLines, needsOfId, exec_jump, running]

theorem reports_push (running : s.runState = .running) : Reports (instrLines s 1 k) s (exec (.push k) s) := by
  obtain ⟨-, rules⟩ := pushFollowsItsRule
  obtain ⟨-, ends_of_room, ends_of_full⟩ := rules k s
  by_cases full : s.params.stackCap = some s.stack.length
  · simp [Reports, instrLines, needsOfId, ends_of_full full, full]
  · simp [Reports, instrLines, needsOfId, ends_of_room full, full, running]

theorem reports_call (running : s.runState = .running) : Reports (instrLines s 14 k) s (exec (.call k) s) := by
  by_cases full : s.params.stackCap = some s.stack.length
  · simp [Reports, instrLines, needsOfId, exec_call_of_full full, full]
  · simp [Reports, instrLines, needsOfId, exec_call_of_room full, full, running]

theorem reports_load (running : s.runState = .running) : Reports (instrLines s 18 k) s (exec (.load k) s) := by
  by_cases hk : Valid s k
  · by_cases full : s.params.stackCap = some s.stack.length
    · simp [Reports, instrLines, needsOfId, exec_load_of_full hk full, hk, full]
    · simp [Reports, instrLines, needsOfId, exec_load_of_room hk full, hk, full, running]
  · simp [Reports, instrLines, needsOfId, exec_load_of_not_valid hk, hk]

/-! ### Instructions that need one entry -/

theorem reports_pop (running : s.runState = .running) : Reports (instrLines s 2 k) s (exec .pop s) :=
  reports_needOne (op := .pop) rfl fun a rest hs => by
    simp [Reports, instrLines, needsOfId, Opcode.id, hs, running]

theorem reports_print (running : s.runState = .running) : Reports (instrLines s 16 k) s (exec .print s) :=
  reports_needOne (op := .print) rfl fun a rest hs => by
    cases consumes : s.params.printConsumes <;> simp [Reports, instrLines, needsOfId, Opcode.id, hs, running]

theorem reports_ret (running : s.runState = .running) : Reports (instrLines s 15 k) s (exec .ret s) :=
  reports_needOne (op := .ret) rfl fun a rest hs => by
    by_cases bad : s.params.debugRaCheck = true ∧ a.tag = false
    · rw [if_pos (badReturnAddress_iff.2 bad), raise_eq_next_faultWith]
      simp [Reports, instrLines, needsOfId, Opcode.id, Condition.code, hs, bad]
    · rw [if_neg (mt badReturnAddress_iff.1 bad)]
      simp [Reports, instrLines, needsOfId, Opcode.id, hs, bad, running]

theorem reports_store (running : s.runState = .running) : Reports (instrLines s 17 k) s (exec (.store k) s) :=
  reports_needOne (op := .store) rfl fun a rest hs => by
    by_cases hk : Valid s k
    · rw [needAddr_of_valid hk]
      simp [Reports, instrLines, needsOfId, Opcode.id, hs, hk, running]
    · rw [needAddr_of_not_valid hk, raise_eq_next_faultWith]
      simp [Reports, instrLines, needsOfId, Opcode.id, Condition.code, hs, hk]

/-! ### The conditional jumps -/

/-- With two entries on the stack no line holds for a conditional jump. -/
theorem find?_instrLines_of_jumpIf {id : Int} (two : 2 ≤ s.stack.length) (ge : 8 ≤ id) (le : id ≤ 13) :
    (instrLines s id k).find? PriorityLine.holds = none := by
  interval_cases id <;> simpa [instrLines, needsOfId]

theorem reports_jumpIf {rel : Comparison} (ge : 8 ≤ op.id) (le : op.id ≤ 13) (running : s.runState = .running) :
    Reports (instrLines s op.id k) s (jumpIf op rel k s) := by
  have two : needsOfId op.id = 2 := by interval_cases op.id <;> rfl
  refine reports_needTwo two fun a b rest hs => reports_of_none (find?_instrLines_of_jumpIf (by simp [hs]) ge le) ?_
  split <;> simp [running]

/-! ### The arithmetic instructions -/

/-- With two entries on the stack and no zero divisor the one line left is ArithmeticOverflow. -/
theorem find?_instrLines_of_arith {id : Int} {a b : StackEntry} {rest : List StackEntry} (hs : s.stack = a :: b :: rest)
    (ge : 3 ≤ id) (le : id ≤ 6) (hdiv : id = 6 → a.word ≠ 0) :
    (instrLines s id k).find? PriorityLine.holds =
      if s.params.overflow = .fault ∧ ¬ IsWord s.params.wordBits (arithResult id b.word a.word) then
        some { holds := true, code := 7, opcode := id, addr := 0 } else none := by
  split
  next h => interval_cases id <;> simp [instrLines, needsOfId, hs, h, hdiv]
  next h => interval_cases id <;> simpa [instrLines, needsOfId, hs, hdiv] using h

theorem reports_finishArith {a b : StackEntry} {rest : List StackEntry} (hs : s.stack = a :: b :: rest)
    (ge : 3 ≤ op.id) (le : op.id ≤ 6) (hdiv : op.id = 6 → a.word ≠ 0) (running : s.runState = .running) :
    Reports (instrLines s op.id k) s (finishArith op (arithResult op.id b.word a.word) s) := by
  have first := find?_instrLines_of_arith (k := k) hs ge le hdiv
  by_cases fault : s.params.overflow = .fault ∧ ¬ IsWord s.params.wordBits (arithResult op.id b.word a.word)
  · rw [finishArith_of_fault fault.2 fault.1]
    exact ⟨_, rfl, by rw [first, if_pos fault]⟩
  · rw [finishArith_of_not_fault hs (mt And.symm fault)]
    exact reports_of_none (first.trans (if_neg fault)) (by simp [running])

theorem reports_arith (ge : 3 ≤ op.id) (le : op.id ≤ 5) (running : s.runState = .running) :
    Reports (instrLines s op.id k) s (needTwo op s fun a b => finishArith op (arithResult op.id b a) s) := by
  have two : needsOfId op.id = 2 := by interval_cases op.id <;> rfl
  exact reports_needTwo two fun a b rest hs =>
    reports_finishArith hs ge (by omega) (fun div => by omega) running

theorem reports_div (running : s.runState = .running) : Reports (instrLines s 6 k) s (exec .div s) := by
  rw [exec_div]
  refine reports_needTwo (op := .div) rfl fun a b rest hs => ?_
  by_cases zero : a.word = 0
  · rw [if_pos zero, raise_eq_next_faultWith]
    simp [Reports, instrLines, needsOfId, Opcode.id, Condition.code, hs, zero]
  · rw [if_neg zero]
    exact reports_finishArith (op := .div) hs (by decide) (by decide) (fun _ => zero) running

/-! ### The dispatch step -/

/-- Every instruction reports the first of its own lines that holds. -/
theorem reports_exec (op : Opcode) (running : s.runState = .running) :
    Reports (instrLines s op.id k) s (exec (op.instr k) s) :=
  match op with
  | .halt => reports_halt
  | .push => reports_push running
  | .pop => reports_pop running
  | .add => reports_arith (op := .add) (by decide) (by decide) running
  | .sub => reports_arith (op := .sub) (by decide) (by decide) running
  | .mul => reports_arith (op := .mul) (by decide) (by decide) running
  | .div => reports_div running
  | .jump => reports_jump running
  | .jumpIfEqual => reports_jumpIf (op := .jumpIfEqual) (by decide) (by decide) running
  | .jumpIfNotEqual => reports_jumpIf (op := .jumpIfNotEqual) (by decide) (by decide) running
  | .jumpIfLessThan => reports_jumpIf (op := .jumpIfLessThan) (by decide) (by decide) running
  | .jumpIfGreaterThan => reports_jumpIf (op := .jumpIfGreaterThan) (by decide) (by decide) running
  | .jumpIfLessThanOrEqual => reports_jumpIf (op := .jumpIfLessThanOrEqual) (by decide) (by decide) running
  | .jumpIfGreaterThanOrEqual => reports_jumpIf (op := .jumpIfGreaterThanOrEqual) (by decide) (by decide) running
  | .call => reports_call running
  | .ret => reports_ret running
  | .print => reports_print running
  | .store => reports_store running
  | .load => reports_load running

/-- The opcodes of R183's third line are those with an operand cell. -/
theorem id_mem_formatI_iff : op.id ∈ ([1, 7, 8, 9, 10, 11, 12, 13, 14, 17, 18] : List Int) ↔ op.arity = 1 := by
  cases op <;> decide

theorem instr_eq_of_arity_zero (h : op.arity = 0) (j k : Int) : op.instr j = op.instr k := by
  cases op with
  | halt | pop | add | sub | mul | div | ret | print => rfl
  | _ => cases h

/-- The fetch ends in the opcode's instruction, whose operand is the next cell's word where it has one. -/
theorem fetch_of_passes (hip : Valid s s.ip) (hop : op.id = s.mem.read s.ip.toNat)
    (hk : op.arity = 1 → Valid s (s.ip + 1)) : fetch s = .instr (op.instr (s.mem.read (s.ip + 1).toNat)) := by
  rcases Nat.le_one_iff_eq_zero_or_eq_one.1 op.arity_le with zero | one
  · rw [fetch_of_arity_zero hip hop zero, instr_eq_of_arity_zero zero]
  · exact fetch_of_arity_one hip hop one (hk one)

end

/-- Settles O15: the three checks of the fetch are the list's first three lines; past them the instruction that the opcode
word names reports the first of the rest. -/
theorem stepReportsTheFirstConditionOfThePriorityList :
    Obligations.StepReportsTheFirstConditionOfThePriorityList := by
  intro s h
  have ⟨_, running, _⟩ := h
  change Reports (priorityList s) (afterIdle s) (step s)
  rw [priorityList_eq]
  refine reports_cons (fun hip => step_of_fetch_raised h (fetch_of_not_valid_ip hip)) fun hip => ?_
  rw [not_not] at hip
  refine reports_cons (fun hw => step_of_fetch_raised h (fetch_of_invalid_opcode hip hw)) fun hw => ?_
  rw [not_not] at hw
  obtain ⟨op, hop⟩ := exists_decodeOpcode_eq_some hw
  replace hop := id_of_decodeOpcode hop
  rw [← hop]
  refine reports_cons (fun ⟨formatI, hk⟩ => step_of_fetch_raised h
    (fetch_of_not_valid_operand hip hop (id_mem_formatI_iff.1 formatI) hk)) fun hk => ?_
  have operand_valid (one : op.arity = 1) : Valid s (s.ip + 1) :=
    of_not_not fun invalid => hk ⟨id_mem_formatI_iff.2 one, invalid⟩
  rw [step_of_fetch_instr h (fetch_of_passes hip hop operand_valid)]
  exact reports_exec op running

end Sys2Proof.Machine
end

section
/-! The proof about START without LOAD (70_reset_and_hazards.md R213): RESET and START leave the block running at address 0 over
the zero memory, and its first dispatch step ends the run. -/

open Sys2Proof.Claims

namespace Sys2Proof.Machine

variable {s : State} {p : Params} {rest : List HostMove}

/-- START in READY is the whole step of a legal instance (10_state.md R44). -/
theorem step_of_host_start (legal : s.params.Legal) (ready : s.runState = .ready) (hs : s.host = .start :: rest) :
    step s = .next { s with host := rest, runState := .running } := by
  rw [step_of_legal legal, hostStep, hs]
  simp only [hostStart, ready]

/-- What RESET and START leave is the reset state made to run. -/
theorem runFor_of_reset_start (legal : s.params.Legal) (hs : s.host = [.reset, .start]) (k : Nat) :
    runFor (k + 2) s = runFor k (State.resetOf s.params).setRunning := by
  have start : step { State.resetOf s.params with host := [.start] } = .next (State.resetOf s.params).setRunning :=
    step_of_host_start legal rfl rfl
  rw [runFor_succ (step_of_host_reset legal hs), runFor_succ start]

theorem dispatching_setRunning (legal : s.params.Legal) : Dispatching s.setRunning := ⟨legal, rfl, .inl rfl⟩

/-- Cell 0 of the zero memory holds 0, the id of Halt. -/
theorem step_setRunning_resetOf_of_cells (legal : p.Legal) (cells : 1 ≤ p.memCap) :
    step (State.resetOf p).setRunning = .next (State.resetOf p).setRunning.halt := by
  have firstCell : Valid (State.resetOf p).setRunning 0 := ⟨le_rfl, Nat.cast_pos.2 cells⟩
  have fetchesHalt : fetch (State.resetOf p).setRunning = .instr .halt :=
    fetch_of_arity_zero (op := .halt) firstCell (State.resetOf_mem_read p 0).symm rfl
  exact step_of_fetch_instr (dispatching_setRunning legal) fetchesHalt

/-- Without cells address 0 is not valid, so the opcode fetch raises. -/
theorem step_setRunning_resetOf_of_no_cells (legal : p.Legal) (noCells : p.memCap = 0) :
    step (State.resetOf p).setRunning = .next (faultWith (State.resetOf p).setRunning 4 0 0) := by
  have noFirstCell : ¬ Valid (State.resetOf p).setRunning 0 := fun ⟨_, lt⟩ => by
    rw [State.setRunning_params, State.resetOf, noCells] at lt
    exact absurd lt (by decide)
  exact step_of_fetch_raised (dispatching_setRunning legal) (fetch_of_not_valid_ip noFirstCell)

/-- Settles O51: after RESET and START the third step is the first dispatch step, a fetched Halt or a raise of the fetch as MEM_CAP
gives a first cell or none; neither moves `ip` or delivers a word. -/
theorem startWithoutLoadHaltsOrFaults : Obligations.StartWithoutLoadHaltsOrFaults := by
  intro s legal hs
  rcases Nat.eq_zero_or_pos s.params.memCap with noCells | cells
  · refine ⟨faultWith (State.resetOf s.params).setRunning 4 0 0, ?_, rfl, rfl, fun cells => by omega, fun _ => rfl⟩
    rw [runFor_of_reset_start legal hs, runFor_succ (step_setRunning_resetOf_of_no_cells legal noCells), runFor_zero]
  · refine ⟨(State.resetOf s.params).setRunning.halt, ?_, rfl, rfl, fun _ => rfl, fun noCells => by omega⟩
    rw [runFor_of_reset_start legal hs, runFor_succ (step_setRunning_resetOf_of_cells legal cells), runFor_zero]

end Sys2Proof.Machine
end

section
/-! What `exec` does, both ways: the states `exec_cases` names are those it answers, and what a completed instruction does to
each field of the state (10_state.md R21, R30). -/

open Sys2Proof.Claims

namespace Sys2Proof.Machine

variable {i : Instr} {s t : State} {op : Opcode} {k : Int}

/-! ### What completes or is raised is what `exec` answers -/

theorem needTwo_of_completesArith {f : Int → Int → Int} (h : CompletesArith op f s t) :
    needTwo op s (fun a b => finishArith op (f b a) s) = .next t := by
  obtain ⟨_, ⟨a, b, rest, hs, rfl⟩, fits, rfl⟩ := h
  have passes : ¬ (¬ IsWord s.params.wordBits (f b.word a.word) ∧ s.params.overflow = .fault) := by
    rintro ⟨outside, fault⟩
    exact fits.elim outside (by simp [fault])
  rw [needTwo_cons hs, finishArith, if_neg (mt overflow_faults_iff.1 passes)]

theorem needTwo_of_raisesArith {f : Int → Int → Int} {c : Condition} (h : RaisesArith f s c) :
    needTwo op s (fun a b => finishArith op (f b a) s) = .next (s.enterFault c op.id 0) := by
  obtain ⟨rfl, short⟩ | ⟨rfl, fault, _, ⟨a, b, rest, hs, rfl⟩, outside⟩ := h
  · rw [needTwo_short short, raise]
  · rw [needTwo_cons hs, finishArith, if_pos (overflow_faults_iff.2 ⟨outside, fault⟩), raise]

theorem jumpIf_of_completesJump {r : Comparison} (h : CompletesJump op r k s t) : jumpIf op r k s = .next t := by
  obtain ⟨a, b, rest, hs, rfl⟩ := h
  rw [jumpIf, needTwo_cons hs]

theorem jumpIf_of_short {r : Comparison} (h : s.stack.length < 2) :
    jumpIf op r k s = .next (s.enterFault .stackUnderflow op.id 0) :=
  needTwo_short h _

theorem exec_div_of_nonzero_divisors (h : ∀ a b rest, s.stack = a :: b :: rest → a.word ≠ 0) :
    exec .div s = needTwo .div s fun a b => finishArith .div (truncDiv b a) s := by
  rw [exec_div]
  match hs : s.stack with
  | [] | [_] => rw [needTwo_short (by simp [hs]), needTwo_short (by simp [hs])]
  | a :: b :: rest => rw [needTwo_cons hs, needTwo_cons hs, if_neg (h a b rest hs)]

/-- An instruction that completes answers so. -/
theorem exec_of_completes (h : Completes i s t) : exec i s = .next t := by
  cases i with
  | halt => exact congrArg _ h.symm
  | push k =>
    obtain ⟨room, rfl⟩ := h
    exact needRoom_of_room room
  | pop =>
    obtain ⟨⟨a, rest, hs⟩, rfl⟩ := h
    exact needOne_cons hs _
  | add => exact needTwo_of_completesArith h
  | sub => exact needTwo_of_completesArith h
  | mul => exact needTwo_of_completesArith h
  | div =>
    obtain ⟨nonzero, h⟩ := h
    rw [exec_div_of_nonzero_divisors fun a b rest hs => nonzero a (b :: rest) hs]
    exact needTwo_of_completesArith h
  | jump k => exact congrArg _ h.symm
  | jumpIfEqual k => exact jumpIf_of_completesJump h
  | jumpIfNotEqual k => exact jumpIf_of_completesJump h
  | jumpIfLessThan k => exact jumpIf_of_completesJump h
  | jumpIfGreaterThan k => exact jumpIf_of_completesJump h
  | jumpIfLessThanOrEqual k => exact jumpIf_of_completesJump h
  | jumpIfGreaterThanOrEqual k => exact jumpIf_of_completesJump h
  | call k =>
    obtain ⟨room, rfl⟩ := h
    exact needRoom_of_room room
  | ret =>
    obtain ⟨a, rest, hs, tagged, rfl⟩ := h
    have passes : ¬ (s.params.debugRaCheck && !a.tag) = true := by
      rw [badReturnAddress_iff]
      rintro ⟨check, untagged⟩
      exact absurd (tagged check) (by simp [untagged])
    rw [exec_ret, needOne_cons hs, if_neg passes]
  | print =>
    obtain ⟨a, rest, hs, rfl⟩ := h
    exact needOne_cons hs _
  | store k =>
    obtain ⟨a, rest, hs, valid, rfl⟩ := h
    rw [exec_store, needOne_cons hs, needAddr_of_valid (validAddr_iff.1 valid)]
  | load k =>
    obtain ⟨valid, room, rfl⟩ := h
    rw [exec_load_of_valid (validAddr_iff.1 valid), needRoom_of_room room]

/-- An instruction that raises a condition answers the fault, with its own opcode in the record. -/
theorem exec_of_raises {c : Condition} {x : Int} (h : Raises i s c x) : exec i s = .next (s.enterFault c i.opcode.id x) := by
  cases i with
  | halt => exact h.elim
  | push k | call k =>
    obtain ⟨rfl, rfl, full⟩ := h
    exact needRoom_of_full full
  | pop | print =>
    obtain ⟨rfl, rfl, empty⟩ := h
    exact needOne_nil empty _
  | add | sub | mul =>
    obtain ⟨rfl, h⟩ := h
    exact needTwo_of_raisesArith h
  | div =>
    obtain ⟨rfl, ⟨h, nonzero⟩ | ⟨rfl, a, b, rest, hs, zero⟩⟩ := h
    · rw [exec_div_of_nonzero_divisors nonzero]
      exact needTwo_of_raisesArith h
    · exact exec_div_of_zero hs zero
  | jump k => exact h.elim
  | jumpIfEqual k | jumpIfNotEqual k | jumpIfLessThan k | jumpIfGreaterThan k | jumpIfLessThanOrEqual k
  | jumpIfGreaterThanOrEqual k =>
    obtain ⟨rfl, rfl, short⟩ := h
    exact jumpIf_of_short short
  | ret =>
    obtain ⟨rfl, ⟨rfl, empty⟩ | ⟨rfl, check, a, rest, hs, untagged⟩⟩ := h
    · exact exec_ret_of_empty empty
    · exact exec_ret_of_untagged hs check untagged
  | store k =>
    obtain ⟨rfl, rfl, empty⟩ | ⟨rfl, rfl, invalid, nonempty⟩ := h
    · exact exec_store_of_empty empty
    · obtain ⟨a, rest, hs⟩ := List.exists_cons_of_ne_nil nonempty
      exact exec_store_of_not_valid hs (by simp [← validAddr_iff, invalid])
  | load k =>
    obtain ⟨rfl, rfl, invalid⟩ | ⟨rfl, rfl, valid, full⟩ := h
    · exact exec_load_of_not_valid (by simp [← validAddr_iff, invalid])
    · exact exec_load_of_full (validAddr_iff.1 valid) full

/-! ### What a completed instruction does to each field -/

/-- The memory after an instruction that completes: only Store writes. -/
def memAfter (i : Instr) (s : State) : Memory :=
  match i, s.stack with
  | .store k, a :: _ => s.mem.write k.toNat a.word
  | _, _ => s.mem

/-- The words delivered after an instruction that completes: only Print delivers. -/
def outputAfter (i : Instr) (s : State) : List Int :=
  match i, s.stack with
  | .print, a :: _ => s.output ++ [a.word]
  | _, _ => s.output

theorem memAfter_cases (i : Instr) (s : State) :
    memAfter i s = s.mem ∨
      ∃ k a rest, i = .store k ∧ s.stack = a :: rest ∧ memAfter i s = s.mem.write k.toNat a.word := by
  unfold memAfter
  split
  · rename_i k a rest hs
    exact .inr ⟨k, a, rest, rfl, hs, rfl⟩
  · exact .inl rfl

theorem outputAfter_cases (i : Instr) (s : State) :
    outputAfter i s = s.output ∨
      ∃ a rest, i = .print ∧ s.stack = a :: rest ∧ outputAfter i s = s.output ++ [a.word] := by
  unfold outputAfter
  split
  · rename_i a rest hs
    exact .inr ⟨a, rest, rfl, hs, rfl⟩
  · exact .inl rfl

/-- Where a completed instruction leaves `ip` (10_state.md R21). -/
def IpRule (i : Instr) (s : State) (ip : Int) : Prop :=
  match i with
  | .halt => ip = s.ip
  | .jump k | .call k => ip = k
  | .ret => s.stack.head?.map StackEntry.word = some ip
  | .jumpIfEqual k | .jumpIfNotEqual k | .jumpIfLessThan k | .jumpIfGreaterThan k | .jumpIfLessThanOrEqual k
  | .jumpIfGreaterThanOrEqual k => ip = k ∨ ip = s.ip + 2
  | .push _ | .store _ | .load _ => ip = s.ip + 2
  | .pop | .add | .sub | .mul | .div | .print => ip = s.ip + 1

/-- A word an instruction can push: its operand, the address after it, a cell's word, a wrapped result; and its tag. -/
def Pushable (i : Instr) (s : State) (e : StackEntry) : Prop :=
  (e.word ∈ i.operand? ∨ e.word = s.ip + 2 ∨ (∃ a, e.word = s.mem.read a) ∨ ∃ x, e.word = wrapW s.params.wordBits x) ∧
    (e.tag = true → s.params.debugRaCheck = true)

/-- What a completed instruction does, field by field. -/
structure Effect (i : Instr) (s t : State) : Prop where
  params : t.params = s.params := by rfl
  host : t.host = s.host := by rfl
  loadStatus : t.loadStatus = s.loadStatus := by rfl
  faultRecord : t.faultRecord = s.faultRecord := by rfl
  runState : t.runState = if i = .halt then .halted else s.runState := by rfl
  mem : t.mem = memAfter i s := by rfl
  output : t.output = outputAfter i s := by rfl
  validStore : ∀ k, i = .store k → Valid s k := by nofun
  ip : IpRule i s t.ip := by rfl
  enough : needs i.opcode ≤ s.stack.length := by exact Nat.zero_le _
  room : i.opcode ∈ ([.push, .call, .load] : List Opcode) → s.params.stackCap ≠ some s.stack.length := by
    simp [Instr.opcode]
  stack : ∃ top, t.stack = top ++ s.stack.drop (pops s.params i.opcode) ∧ top.length = pushes i.opcode ∧
    ∀ e ∈ top, Pushable i s e := by exact ⟨[], rfl, rfl, List.forall_mem_nil _⟩

/-! ### The stack-effect table -/

theorem pops_le_needs (p : Params) (op : Opcode) : pops p op ≤ needs op := by
  cases op <;> simp only [pops, needs, le_refl]
  split <;> decide

/-- Only Push, Call and Load make the stack longer. -/
theorem pushes_le_pops_or_push (p : Params) (op : Opcode) :
    pushes op ≤ pops p op ∨ op ∈ ([.push, .call, .load] : List Opcode) := by
  cases op <;> simp [pushes, pops]

theorem effect_length (e : Effect i s t) :
    t.stack.length + pops s.params i.opcode = s.stack.length + pushes i.opcode := by
  obtain ⟨top, stack, pushed, -⟩ := e.stack
  have enough := (pops_le_needs s.params i.opcode).trans e.enough
  rw [stack, List.length_append, List.length_drop, pushed]
  omega

theorem effect_length_of_push (e : Effect i s t) (push : i.opcode ∈ ([.push, .call, .load] : List Opcode)) :
    t.stack.length = s.stack.length + 1 := by
  have length := effect_length e
  generalize i.opcode = op at push length
  simp only [List.mem_cons, List.not_mem_nil, or_false] at push
  rcases push with rfl | rfl | rfl <;> exact length

/-! ### Every completed instruction has its effect -/

theorem pushable_singleton {e : StackEntry} (h : Pushable i s e) : ∀ e' ∈ [e], Pushable i s e' :=
  List.forall_mem_singleton.2 h

/-- The wrapped result of two operands in their place. -/
theorem replacesTwo_of_completesArith {f : Int → Int → Int} (h : CompletesArith op f s t) :
    2 ≤ s.stack.length ∧ ∃ x, t = ((s.drop 2).push (wrapW s.params.wordBits x)).advance op := by
  obtain ⟨x, ⟨a, b, rest, hs, -⟩, -, rfl⟩ := h
  exact ⟨by simp [hs], x, rfl⟩

/-- Both operands are consumed, and `ip` is the target or the next instruction. -/
theorem consumesTwo_of_completesJump {r : Comparison} (h : CompletesJump op r k s t) :
    2 ≤ s.stack.length ∧ (t = (s.drop 2).setIp k ∨ t = (s.drop 2).advance op) := by
  obtain ⟨a, b, rest, hs, rfl⟩ := h
  refine ⟨by simp [hs], ?_⟩
  split
  · exact .inl rfl
  · exact .inr rfl

/-- Each form of a completed instruction changes the fields as `Effect` says; what is not given holds by `rfl`. -/
theorem effect_of_completes (h : Completes i s t) : Effect i s t := by
  cases i with
  | halt =>
    obtain rfl : t = s.halt := h
    exact {}
  | push k =>
    obtain ⟨room, rfl⟩ := h
    exact { room := fun _ => room, stack := ⟨[_], rfl, rfl, pushable_singleton ⟨.inl rfl, nofun⟩⟩ }
  | pop =>
    obtain ⟨⟨a, rest, hs⟩, rfl⟩ := h
    exact { enough := by simp [hs, needs, Instr.opcode] }
  | add | sub | mul =>
    obtain ⟨two, x, rfl⟩ := replacesTwo_of_completesArith h
    exact { enough := two, stack := ⟨[_], rfl, rfl, pushable_singleton ⟨.inr (.inr (.inr ⟨x, rfl⟩)), nofun⟩⟩ }
  | div =>
    obtain ⟨two, x, rfl⟩ := replacesTwo_of_completesArith h.2
    exact { enough := two, stack := ⟨[_], rfl, rfl, pushable_singleton ⟨.inr (.inr (.inr ⟨x, rfl⟩)), nofun⟩⟩ }
  | jump k =>
    obtain rfl : t = s.setIp k := h
    exact {}
  | jumpIfEqual k | jumpIfNotEqual k | jumpIfLessThan k | jumpIfGreaterThan k | jumpIfLessThanOrEqual k
  | jumpIfGreaterThanOrEqual k =>
    obtain ⟨two, rfl | rfl⟩ := consumesTwo_of_completesJump h
    · exact { ip := .inl rfl, enough := two }
    · exact { ip := .inr rfl, enough := two }
  | call k =>
    obtain ⟨room, rfl⟩ := h
    exact { room := fun _ => room, stack := ⟨[_], rfl, rfl, pushable_singleton ⟨.inr (.inl rfl), id⟩⟩ }
  | ret =>
    obtain ⟨a, rest, hs, -, rfl⟩ := h
    exact { ip := by simp [IpRule, hs], enough := by simp [hs, needs, Instr.opcode] }
  | print =>
    obtain ⟨a, rest, hs, rfl⟩ := h
    cases consumes : s.params.printConsumes
    · exact { output := by simp [outputAfter, hs], enough := by simp [hs, needs, Instr.opcode],
              stack := ⟨[], by simp [pops, Instr.opcode, consumes], rfl, List.forall_mem_nil _⟩ }
    · exact { output := by simp [outputAfter, hs], enough := by simp [hs, needs, Instr.opcode],
              stack := ⟨[], by simp [pops, Instr.opcode, consumes], rfl, List.forall_mem_nil _⟩ }
  | store k =>
    obtain ⟨a, rest, hs, valid, rfl⟩ := h
    exact { mem := by simp [memAfter, hs], validStore := fun _ e => Instr.store.inj e ▸ validAddr_iff.1 valid,
            enough := by simp [hs, needs, Instr.opcode] }
  | load k =>
    obtain ⟨-, room, rfl⟩ := h
    exact { room := fun _ => room, stack := ⟨[_], rfl, rfl, pushable_singleton ⟨.inr (.inr (.inl ⟨_, rfl⟩)), nofun⟩⟩ }

end Sys2Proof.Machine
end

section
/-! What the fetch and a step of the model can do, said once: the inversions of `fetch`, of the host's commands and of
`step`. -/

open Sys2Proof.Claims

namespace Sys2Proof.Machine

variable {i : Instr} {s t : State} {op : Opcode} {k : Int} {image : List Int} {rest : List HostMove}

/-! ### The fetch -/

/-- The operand of an opcode's instruction is the one given, and there is one only where the arity is 1. -/
theorem mem_operand_instr {x : Int} (h : x ∈ (op.instr k).operand?) : x = k ∧ op.arity ≠ 0 := by
  cases op <;> simp_all [Opcode.instr, Instr.operand?, Opcode.arity]

/-- What stands in the cells of a fetched instruction. -/
theorem fetch_eq_instr (h : fetch s = .instr i) :
    Valid s s.ip ∧ s.mem.read s.ip.toNat = i.opcode.id ∧
      ∀ x ∈ i.operand?, Valid s (s.ip + 1) ∧ x = s.mem.read (s.ip + 1).toNat := by
  rcases fetch_cases s with ⟨-, hf⟩ | ⟨w, hw, ⟨-, hf⟩ | ⟨op, hop, ⟨zero, hf⟩ | ⟨-, -, hf⟩ | ⟨-, k, hk, hf⟩⟩⟩ <;>
    rw [hf] at h <;> cases h
  all_goals
    obtain ⟨valid, rfl⟩ := memRead_eq_some.1 hw
    refine ⟨validAddr_iff.1 valid, by simp [decodeOpcode_eq_some.1 hop], fun x hx => ?_⟩
    obtain ⟨rfl, nonzero⟩ := mem_operand_instr hx
  · exact absurd zero nonzero
  · obtain ⟨validOperand, rfl⟩ := memRead_eq_some.1 hk
    exact ⟨validAddr_iff.1 validOperand, rfl⟩

/-- What a fetch that raises records (20_memory.md R55, R56). -/
theorem fetch_eq_raised {c : Condition} {o a : Int} (h : fetch s = .raised c o a) :
    (c = .addressOutOfRange ∧ o = 0 ∧ a = s.ip) ∨
      Valid s s.ip ∧ o = s.mem.read s.ip.toNat ∧ (c = .invalidOpcode ∧ a = 0 ∨ c = .addressOutOfRange ∧ a = s.ip + 1) := by
  rcases fetch_cases s with ⟨-, hf⟩ | ⟨w, hw, ⟨-, hf⟩ | ⟨op, hop, ⟨-, hf⟩ | ⟨-, -, hf⟩ | ⟨-, k, -, hf⟩⟩⟩ <;>
    rw [hf] at h <;> cases h
  · exact .inl ⟨rfl, rfl, rfl⟩
  all_goals
    obtain ⟨valid, rfl⟩ := memRead_eq_some.1 hw
  · exact .inr ⟨validAddr_iff.1 valid, rfl, .inl ⟨rfl, rfl⟩⟩
  · exact .inr ⟨validAddr_iff.1 valid, rfl, .inr ⟨rfl, rfl⟩⟩

/-! ### The host's commands -/

theorem hostLoad_of_not_ready (h : s.runState ≠ .ready) : hostLoad image s = s := by
  cases hs : s.runState <;> simp_all [hostLoad]

theorem hostLoad_of_too_large (h : s.runState = .ready) (large : s.params.memCap < image.length) :
    hostLoad image s = { s with loadStatus := 5 } := by
  simp only [hostLoad, h, if_pos large]
  rfl

theorem hostLoad_of_fits (h : s.runState = .ready) (fits : image.length ≤ s.params.memCap) :
    hostLoad image s = { s with mem := s.mem.copy 0 image, loadStatus := 0 } := by
  simp only [hostLoad, h, if_neg (Nat.not_lt.2 fits)]

/-- What LOAD can do (10_state.md R42). -/
theorem hostLoad_cases (image : List Int) (s : State) :
    hostLoad image s = s ∨ s.runState = .ready ∧ (hostLoad image s = { s with loadStatus := 5 } ∨
      image.length ≤ s.params.memCap ∧ hostLoad image s = { s with mem := s.mem.copy 0 image, loadStatus := 0 }) := by
  by_cases ready : s.runState = .ready
  · rcases Nat.lt_or_ge s.params.memCap image.length with large | fits
    · exact .inr ⟨ready, .inl (hostLoad_of_too_large ready large)⟩
    · exact .inr ⟨ready, .inr ⟨fits, hostLoad_of_fits ready fits⟩⟩
  · exact .inl (hostLoad_of_not_ready ready)

/-- What START does (10_state.md R44). -/
theorem hostStart_eq (s : State) :
    hostStart s = { s with runState := if s.runState = .ready then .running else s.runState } := by
  obtain ⟨_, _, _, _, r, _⟩ := s
  cases r <;> rfl

/-! ### The step -/

theorem afterIdle_of_cons {m : HostMove} (h : s.host = m :: rest) : afterIdle s = { s with host := rest } := by
  rw [afterIdle, h, List.tail_cons]

/-- A block that is not RUNNING takes no step (10_state.md R33; log 6). -/
theorem dispatchStep_of_not_running (h : s.runState ≠ .running) : dispatchStep s = .next s := by
  cases hs : s.runState <;> simp_all [dispatchStep]

/-- What a step without a command does: a dispatch step in RUNNING, otherwise nothing. -/
theorem step_of_noCommand (legal : s.params.Legal) (h : NoCommand s) : step s = dispatchStep (afterIdle s) := by
  rw [step_of_legal legal, hostStep_of_noCommand h]

theorem step_of_stopped (legal : s.params.Legal) (h : NoCommand s) (stopped : s.runState ≠ .running) :
    step s = .next (afterIdle s) := by
  rw [step_of_noCommand legal h, dispatchStep_of_not_running (s := afterIdle s) stopped]

theorem step_of_load (legal : s.params.Legal) (h : s.host = .load image :: rest) :
    step s = .next (hostLoad image (afterIdle s)) := by
  rw [step_of_legal legal, hostStep, h, afterIdle_of_cons h]

theorem step_of_start (legal : s.params.Legal) (h : s.host = .start :: rest) : step s = .next (hostStart (afterIdle s)) := by
  rw [step_of_legal legal, hostStep, h, afterIdle_of_cons h]

/-- The host's turn: no command, or one of the three. -/
theorem host_cases (s : State) :
    NoCommand s ∨ (∃ rest, s.host = .reset :: rest) ∨ (∃ image rest, s.host = .load image :: rest) ∨
      ∃ rest, s.host = .start :: rest := by
  rcases hs : s.host with _ | ⟨_ | _ | image | _, rest⟩
  · exact .inl (.inl hs)
  · exact .inl (.inr ⟨rest, hs⟩)
  · exact .inr (.inl ⟨rest, rfl⟩)
  · exact .inr (.inr (.inl ⟨image, rest, rfl⟩))
  · exact .inr (.inr (.inr ⟨rest, rfl⟩))

theorem legal_of_step (h : step s = .next t) : s.params.Legal := by
  by_contra illegal
  simp [step, illegal] at h

/-- All that a dispatch step can do: the fetch raises, or the fetched instruction completes or raises. -/
theorem dispatching_cases (hd : Dispatching s) (h : step s = .next t) :
    (∃ c o a, fetch s = .raised c o a ∧ t = (afterIdle s).enterFault c o a) ∨
      ∃ i, fetch s = .instr i ∧ (Completes i (afterIdle s) t ∨
        ∃ c x, Raises i (afterIdle s) c x ∧ t = (afterIdle s).enterFault c i.opcode.id x) := by
  cases hf : fetch s with
  | instr i => exact .inr ⟨i, rfl, exec_cases (step_of_fetch_instr hd hf ▸ h)⟩
  | raised c o a =>
    rw [step_of_fetch_raised hd hf] at h
    exact .inl ⟨c, o, a, rfl, (Host.Outcome.next.inj h).symm⟩

/-- All that a step can do: a dispatch step, nothing but reading an idle move, or one of the host's commands. -/
theorem step_cases (h : step s = .next t) :
    Dispatching s ∨ (NoCommand s ∧ s.runState ≠ .running ∧ t = afterIdle s) ∨
      (∃ rest, s.host = .reset :: rest ∧ t = { State.resetOf s.params with host := rest }) ∨
      (∃ image rest, s.host = .load image :: rest ∧ t = hostLoad image (afterIdle s)) ∨
      ∃ rest, s.host = .start :: rest ∧ t = hostStart (afterIdle s) := by
  have legal := legal_of_step h
  rcases host_cases s with idle | ⟨rest, hs⟩ | ⟨image, rest, hs⟩ | ⟨rest, hs⟩
  · by_cases running : s.runState = .running
    · exact .inl ⟨legal, running, idle⟩
    · rw [step_of_stopped legal idle running] at h
      exact .inr (.inl ⟨idle, running, (Host.Outcome.next.inj h).symm⟩)
  · rw [step_of_host_reset legal hs] at h
    exact .inr (.inr (.inl ⟨rest, hs, (Host.Outcome.next.inj h).symm⟩))
  · rw [step_of_load legal hs] at h
    exact .inr (.inr (.inr (.inl ⟨image, rest, hs, (Host.Outcome.next.inj h).symm⟩)))
  · rw [step_of_start legal hs] at h
    exact .inr (.inr (.inr (.inr ⟨rest, hs, (Host.Outcome.next.inj h).symm⟩)))

end Sys2Proof.Machine
end

section
/-! The proofs about the invariant: it holds after reset, every fetched instruction is well formed in it, and every step keeps it
(10_state.md R34, R35, R38; 60_exceptions.md R180). A completed instruction is taken field by field, from `Effect`. -/

open Sys2Proof.Claims

namespace Sys2Proof.Machine

variable {i : Instr} {s t : State} {op : Opcode} {k : Int} {image : List Int} {rest : List HostMove} {p : Params} {W : Nat}

/-! ### Words -/

theorem isWord_of_small {x : Int} (hW : 8 ≤ W) (lower : -128 ≤ x) (upper : x ≤ 127) : IsWord W x := by
  have large : 2 ^ 7 ≤ 2 ^ (W - 1) := Nat.pow_le_pow_right (by decide) (by omega)
  unfold IsWord wordMin wordMax
  omega

theorem isWord_id (hW : 8 ≤ W) (op : Opcode) : IsWord W op.id := by
  have nonneg := op.id_nonneg
  have le := op.id_le
  exact isWord_of_small hW (by omega) (by omega)

theorem isWord_near_valid {a : Int} (legal : s.params.Legal) (h : Valid s a) {d : Int} (nonneg : 0 ≤ d) (le : d ≤ 2) :
    IsWord s.params.wordBits (a + d) := by
  obtain ⟨-, memCap, -⟩ := legal
  obtain ⟨lower, upper⟩ := h
  zify at memCap
  unfold IsWord wordMin wordMax
  push_cast
  omega

/-- Settles O14: R8 keeps MEM_CAP two below the greatest word's successor. -/
theorem advanceCannotOverflowTheWord : Obligations.AdvanceCannotOverflowTheWord :=
  fun _ legal valid => ⟨isWord_near_valid legal valid (by decide) (by decide),
    isWord_near_valid legal valid (by decide) (by decide)⟩

theorem Memory.isWord_read {m : Memory} (hW : 8 ≤ W) (h : ∀ c ∈ m, IsWord W c.2) (a : Nat) : IsWord W (m.read a) := by
  induction m with
  | nil => exact isWord_of_small (x := 0) hW (by decide) (by decide)
  | cons c m ih =>
    obtain ⟨head, tail⟩ := List.forall_mem_cons.1 h
    rw [Memory.read_cons]
    split
    · exact head
    · exact ih tail

/-- In a state of the invariant every cell reads as a word. -/
theorem isWord_read (legal : s.params.Legal) (h : MemOk s) (a : Nat) : IsWord s.params.wordBits (s.mem.read a) :=
  Memory.isWord_read legal.1 (fun c hc => (h.2 c hc).2) a

/-! ### The fetched instruction -/

/-- Settles O11: the operand is the word of the cell after `ip`. -/
theorem fetchedInstructionsAreWellFormed : Obligations.FetchedInstructionsAreWellFormed := by
  rintro s i ⟨legal, -, hmem, -⟩ hf x hx
  obtain ⟨-, -, operand⟩ := fetch_eq_instr hf
  obtain ⟨-, rfl⟩ := operand x hx
  exact isWord_read legal hmem _

/-! ### Reset -/

theorem inv_resetOf (legal : p.Legal) (h : ∀ m ∈ rest, ∀ v ∈ m.words, IsWord p.wordBits v) :
    State.Inv { State.resetOf p with host := rest } := by
  have zero : IsWord p.wordBits 0 := isWord_of_small legal.1 (by decide) (by decide)
  have stack : StackOk { State.resetOf p with host := rest } := ⟨List.forall_mem_nil _, fun _ _ => Nat.zero_le _⟩
  exact ⟨legal, zero, ⟨Memory.wf_nil, List.forall_mem_nil _⟩, stack, fun _ => ⟨rfl, rfl, rfl⟩, ⟨fun _ => rfl, nofun⟩,
    .inl rfl, List.forall_mem_nil _, h⟩

/-- Settles O2: every register is 0, and stack, memory and output are empty. -/
theorem invariantHoldsAtReset : Obligations.InvariantHoldsAtReset := by
  have reset : ∀ p : Params, p.Legal → (State.resetOf p).Inv := fun p legal => inv_resetOf legal (List.forall_mem_nil _)
  exact ⟨reset referenceParams (by decide), reset⟩

/-! ### The host's turn -/

/-- Reading a move of the host leaves the moves after it. -/
theorem inv_afterIdle (h : s.Inv) : (afterIdle s).Inv := by
  obtain ⟨legal, ip, mem, stack, ready, fault, loadStatus, output, host⟩ := h
  exact ⟨legal, ip, mem, stack, ready, fault, loadStatus, output, fun m hm => host m (List.mem_of_mem_tail hm)⟩

theorem inv_hostLoad (h : s.Inv) (words : ∀ v ∈ image, IsWord s.params.wordBits v) : (hostLoad image s).Inv := by
  obtain ⟨legal, ip, ⟨wf, cells⟩, stack, ready, fault, loadStatus, output, host⟩ := h
  obtain e | ⟨-, e | ⟨fits, e⟩⟩ := hostLoad_cases image s <;> rw [e]
  · exact ⟨legal, ip, ⟨wf, cells⟩, stack, ready, fault, loadStatus, output, host⟩
  · exact ⟨legal, ip, ⟨wf, cells⟩, stack, ready, fault, .inr rfl, output, host⟩
  · refine ⟨legal, ip, ⟨Memory.wf_copy wf 0 image, fun c hc => ?_⟩, stack, ready, fault, .inl rfl, output, host⟩
    rcases Memory.mem_copy hc with hc | ⟨⟨-, below⟩, hc⟩
    · exact cells c hc
    · rw [Nat.zero_add] at below
      exact ⟨below.trans_le fits, words _ hc⟩

theorem inv_hostStart (h : s.Inv) : (hostStart s).Inv := by
  obtain ⟨legal, ip, mem, stack, ready, ⟨clear, record⟩, loadStatus, output, host⟩ := h
  rw [hostStart_eq]
  by_cases hr : s.runState = .ready
  · rw [if_pos hr]
    exact ⟨legal, ip, mem, stack, nofun, ⟨fun _ => clear (by simp [hr]), nofun⟩, loadStatus, output, host⟩
  · rw [if_neg hr]
    exact ⟨legal, ip, mem, stack, ready, ⟨clear, record⟩, loadStatus, output, host⟩

/-! ### A fatal condition -/

theorem code_mem_of_ne {c : Condition} (h : c ≠ .programTooLarge) : c.code ∈ ([1, 2, 3, 4, 6, 7, 8] : List (BitVec 4)) := by
  cases c <;> simp_all [Condition.code]

theorem inv_enterFault {c : Condition} {o a : Int} (h : s.Inv) (hc : c ≠ .programTooLarge)
    (ho : IsWord s.params.wordBits o) (ha : IsWord s.params.wordBits a) (haddr : c ≠ .addressOutOfRange → a = 0) :
    (s.enterFault c o a).Inv := by
  obtain ⟨legal, ip, mem, stack, -, -, loadStatus, output, host⟩ := h
  have record : FaultOk (s.enterFault c o a) :=
    ⟨fun notFaulted => absurd rfl notFaulted,
      fun _ => ⟨code_mem_of_ne hc, rfl, ho, ha, fun ne => haddr fun e => ne (e ▸ rfl)⟩⟩
  exact ⟨legal, ip, mem, stack, nofun, record, loadStatus, output, host⟩

/-- The conditions of an instruction's own rule, and that FAULT_ADDR is its operand or 0 (60_exceptions.md R180, R182). -/
theorem code_mem_of_raises {c : Condition} {x : Int} (h : Raises i s c x) :
    c.code ∈ ownCodes i.opcode ∧ c ≠ .programTooLarge ∧ (x = 0 ∨ c = .addressOutOfRange ∧ x ∈ i.operand?) := by
  have arith : ∀ {f : Int → Int → Int}, RaisesArith f s c → c = .stackUnderflow ∨ c = .arithmeticOverflow :=
    fun h => h.imp And.left And.left
  cases i with
  | halt | jump k => exact h.elim
  | push k | call k | pop | print | jumpIfEqual k | jumpIfNotEqual k | jumpIfLessThan k | jumpIfGreaterThan k
  | jumpIfLessThanOrEqual k | jumpIfGreaterThanOrEqual k =>
    obtain ⟨rfl, rfl, -⟩ := h
    exact ⟨.head _, by decide, .inl rfl⟩
  | add | sub | mul =>
    obtain ⟨rfl, h⟩ := h
    obtain rfl | rfl := arith h <;> exact ⟨by decide, by decide, .inl rfl⟩
  | div =>
    obtain ⟨rfl, ⟨h, -⟩ | ⟨rfl, -⟩⟩ := h
    · obtain rfl | rfl := arith h <;> exact ⟨by decide, by decide, .inl rfl⟩
    · exact ⟨by decide, by decide, .inl rfl⟩
  | ret =>
    obtain ⟨rfl, ⟨rfl, -⟩ | ⟨rfl, -⟩⟩ := h <;> exact ⟨by decide, by decide, .inl rfl⟩
  | store k =>
    obtain ⟨rfl, rfl, -⟩ | ⟨rfl, rfl, -⟩ := h
    · exact ⟨.head _, by decide, .inl rfl⟩
    · exact ⟨.tail _ (.head _), by decide, .inr ⟨rfl, rfl⟩⟩
  | load k =>
    obtain ⟨rfl, rfl, -⟩ | ⟨rfl, rfl, -⟩ := h
    · exact ⟨.head _, by decide, .inr ⟨rfl, rfl⟩⟩
    · exact ⟨.tail _ (.head _), by decide, .inl rfl⟩

/-! ### A completed instruction -/

theorem effect_ip_isWord (h : s.Inv) (valid : Valid s s.ip) (hi : i.WellFormed s.params.wordBits) (e : Effect i s t) :
    IsWord s.params.wordBits t.ip := by
  obtain ⟨legal, ip, -, ⟨entries, -⟩, -⟩ := h
  have one := isWord_near_valid legal valid (d := 1) (by decide) (by decide)
  have two := isWord_near_valid legal valid (d := 2) (by decide) (by decide)
  have moved := e.ip
  cases i with
  | halt => rwa [show t.ip = s.ip from moved]
  | jump k | call k => rw [show t.ip = k from moved]; exact hi k rfl
  | ret =>
    obtain ⟨a, top, ha⟩ := Option.map_eq_some_iff.1 moved
    exact ha ▸ (entries a (List.mem_of_mem_head? top)).1
  | jumpIfEqual k | jumpIfNotEqual k | jumpIfLessThan k | jumpIfGreaterThan k | jumpIfLessThanOrEqual k
  | jumpIfGreaterThanOrEqual k =>
    rcases moved with moved | moved <;> rw [moved]
    · exact hi k rfl
    · exact two
  | push k | store k | load k => rwa [show t.ip = s.ip + 2 from moved]
  | pop | add | sub | mul | div | print => rwa [show t.ip = s.ip + 1 from moved]

theorem isWord_of_pushable (h : s.Inv) (valid : Valid s s.ip) (hi : i.WellFormed s.params.wordBits) {e : StackEntry}
    (he : Pushable i s e) : IsWord s.params.wordBits e.word := by
  obtain ⟨legal, -, mem, -⟩ := h
  obtain ⟨operand | after | ⟨a, read⟩ | ⟨x, wrapped⟩, -⟩ := he
  · exact hi _ operand
  · rw [after]
    exact isWord_near_valid legal valid (by decide) (by decide)
  · rw [read]
    exact isWord_read legal mem a
  · rw [wrapped]
    exact isWord_wrapW (one_le_wordBits_of_legal legal) x

/-- The entries below the popped ones stay, and a push has room or follows two pops. -/
theorem effect_stackOk (h : s.Inv) (valid : Valid s s.ip) (hi : i.WellFormed s.params.wordBits) (e : Effect i s t) :
    StackOk t := by
  have ⟨_, _, _, ⟨entries, depth⟩, _⟩ := h
  obtain ⟨top, stack, pushed, pushable⟩ := e.stack
  refine ⟨fun x hx => ?_, fun c hc => ?_⟩
  · rw [e.params]
    rw [stack, List.mem_append] at hx
    rcases hx with hx | hx
    · exact ⟨isWord_of_pushable h valid hi (pushable x hx), (pushable x hx).2⟩
    · exact entries x (List.mem_of_mem_drop hx)
  · rw [e.params] at hc
    have le := depth c hc
    have length := effect_length e
    rcases pushes_le_pops_or_push s.params i.opcode with shorter | push
    · omega
    · have room := e.room push
      rw [Option.mem_def.1 hc, ne_eq, Option.some_inj] at room
      have one := effect_length_of_push e push
      omega

theorem effect_memOk (h : s.Inv) (e : Effect i s t) : MemOk t := by
  obtain ⟨-, -, ⟨wf, cells⟩, ⟨entries, -⟩, -⟩ := h
  rw [MemOk, e.params, e.mem]
  obtain kept | ⟨k, a, rest, rfl, hs, written⟩ := memAfter_cases i s
  · rw [kept]
    exact ⟨wf, cells⟩
  · rw [written]
    refine ⟨Memory.wf_write wf _ _, fun c hc => ?_⟩
    rcases Memory.mem_write hc with hc | ⟨rfl, -⟩
    · exact cells c hc
    · obtain ⟨nonneg, lt⟩ := e.validStore k rfl
      exact ⟨by simp only; omega, (entries a (by simp [hs])).1⟩

theorem effect_output_isWord (h : s.Inv) (e : Effect i s t) : ∀ v ∈ t.output, IsWord s.params.wordBits v := by
  obtain ⟨-, -, -, ⟨entries, -⟩, -, -, -, output, -⟩ := h
  rw [e.output]
  obtain kept | ⟨a, rest, rfl, hs, delivered⟩ := outputAfter_cases i s
  · rwa [kept]
  · rw [delivered, List.forall_mem_append, List.forall_mem_singleton]
    exact ⟨output, (entries a (by simp [hs])).1⟩

/-- A completed instruction leaves the block RUNNING or HALTED. -/
theorem effect_runState (running : s.runState = .running) (e : Effect i s t) :
    t.runState ≠ .ready ∧ t.runState ≠ .faulted ∧ (t.runState = .halted ↔ i = .halt) := by
  rw [e.runState]
  split <;> simp [*]

theorem inv_of_effect (h : s.Inv) (running : s.runState = .running) (valid : Valid s s.ip)
    (hi : i.WellFormed s.params.wordBits) (e : Effect i s t) : t.Inv := by
  have ⟨legal, _, _, _, _, ⟨clear, _⟩, loadStatus, _, host⟩ := h
  obtain ⟨notReady, notFaulted, -⟩ := effect_runState running e
  have notFaultedBefore : s.runState ≠ .faulted := by simp [running]
  refine ⟨e.params ▸ legal, e.params ▸ effect_ip_isWord h valid hi e, effect_memOk h e, effect_stackOk h valid hi e,
    fun ready => absurd ready notReady, ⟨fun _ => e.faultRecord ▸ clear notFaultedBefore, fun f => absurd f notFaulted⟩, ?_,
    e.params ▸ effect_output_isWord h e, ?_⟩
  · rwa [LoadStatusOk, e.loadStatus]
  · rwa [HostOk, e.host, e.params]

/-! ### The dispatch step -/

theorem inv_of_fetch_raised (h : s.Inv) {c : Condition} {o a : Int} (hf : fetch s = .raised c o a) :
    (s.enterFault c o a).Inv := by
  have ⟨legal, ip, mem, _⟩ := h
  have zero : IsWord s.params.wordBits 0 := isWord_of_small legal.1 (by decide) (by decide)
  rcases fetch_eq_raised hf with ⟨rfl, rfl, rfl⟩ | ⟨valid, rfl, ⟨rfl, rfl⟩ | ⟨rfl, rfl⟩⟩
  · exact inv_enterFault h (by decide) zero ip (absurd rfl)
  · exact inv_enterFault h (by decide) (isWord_read legal mem _) zero fun _ => rfl
  · exact inv_enterFault h (by decide) (isWord_read legal mem _)
      (isWord_near_valid legal valid (by decide) (by decide)) (absurd rfl)

theorem inv_of_raises (h : s.Inv) (hi : i.WellFormed s.params.wordBits) {c : Condition} {x : Int} (hr : Raises i s c x) :
    (s.enterFault c i.opcode.id x).Inv := by
  have ⟨legal, _⟩ := h
  obtain ⟨-, possible, hx⟩ := code_mem_of_raises hr
  refine inv_enterFault h possible (isWord_id legal.1 _) ?_ fun other => hx.resolve_right fun e => other e.1
  obtain rfl | ⟨-, operand⟩ := hx
  · exact isWord_of_small legal.1 (by decide) (by decide)
  · exact hi x operand

theorem inv_of_dispatching (h : s.Inv) (hd : Dispatching s) (hs : step s = .next t) : t.Inv := by
  have ⟨_, running, _⟩ := hd
  have h' : (afterIdle s).Inv := inv_afterIdle h
  rcases dispatching_cases hd hs with ⟨c, o, a, hf, rfl⟩ | ⟨i, hf, completes | ⟨c, x, raises, rfl⟩⟩
  · have hf' : fetch (afterIdle s) = .raised c o a := hf
    exact inv_of_fetch_raised h' hf'
  · obtain ⟨valid, -⟩ := fetch_eq_instr hf
    exact inv_of_effect h' running valid (fetchedInstructionsAreWellFormed s i h hf) (effect_of_completes completes)
  · exact inv_of_raises h' (fetchedInstructionsAreWellFormed s i h hf) raises

/-- Settles O3: each kind of step keeps the invariant. -/
theorem stepKeepsInvariant : Obligations.StepKeepsInvariant := by
  intro s t h hs
  have ⟨legal, _, _, _, _, _, _, _, host⟩ := h
  rcases step_cases hs with hd | ⟨-, -, rfl⟩ | ⟨rest, hr, rfl⟩ | ⟨image, rest, hl, rfl⟩ | ⟨rest, -, rfl⟩
  · exact inv_of_dispatching h hd hs
  · exact inv_afterIdle h
  · exact inv_resetOf legal fun m hm => host m (by simp [hr, hm])
  · exact inv_hostLoad (inv_afterIdle h) (host (.load image) (by simp [hl]))
  · exact inv_hostStart (inv_afterIdle h)

end Sys2Proof.Machine
end

section
/-! The proofs about the byte form of a word (20_memory.md R53): its bytes are the little-endian digits of the word to base 256,
reading them back gives the word modulo a power of 256, and so a program survives. -/

namespace Sys2Proof.Machine

variable {W n k : Nat} {v : Int}

/-! ### One byte of a sign-extended word -/

/-- Reducing modulo a multiple of `a * 256` changes no digit below it. -/
theorem digit_emod (ha : 0 < k) (b : Int) (v : Int) : (v % (k * (256 * b))) / k % 256 = v / k % 256 := by
  have split : v % (k * (256 * b)) = v + k * (256 * (-(b * (v / (k * (256 * b)))))) := by
    rw [Int.emod_def]
    ring
  rw [split, Int.add_mul_ediv_left _ _ (by omega), Int.add_mul_emod_self_left]

theorem extract_byte (hk : k < n) (v : Int) :
    (BitVec.ofInt (8 * n) v).extractLsb' (8 * k) 8 = BitVec.ofInt 8 (v / 256 ^ k) := by
  have base : ∀ m, 2 ^ (8 * m) = 256 ^ m := fun m => pow_mul 2 8 m
  obtain ⟨d, rfl⟩ := Nat.exists_eq_add_of_lt hk
  have modulus : ((256 ^ (k + d + 1) : Nat) : Int) = (256 ^ k : Nat) * (256 * 256 ^ d) := by
    push_cast
    ring
  apply BitVec.eq_of_toNat_eq
  rw [BitVec.extractLsb'_toNat, BitVec.toNat_ofInt, BitVec.toNat_ofInt, Nat.shiftRight_eq_div_pow, base, base, modulus]
  zify
  rw [Int.toNat_of_nonneg (Int.emod_nonneg _ (by positivity)), Int.toNat_of_nonneg (Int.emod_nonneg _ (by decide))]
  exact_mod_cast digit_emod (Nat.pow_pos (by decide)) (256 ^ d) v

theorem ofInt_signExtend_of_isWord (hW : 1 ≤ W) (hv : IsWord W v) (m : Nat) :
    (BitVec.ofInt W v).signExtend m = BitVec.ofInt m v := by
  rw [BitVec.signExtend, BitVec.toInt_ofInt, show v.bmod (2 ^ W) = v from wrapW_of_isWord hW hv]

/-! ### All bytes of a number, least significant first -/

/-- The `n` lowest little-endian bytes of `v`. -/
def bytesOf (n : Nat) (v : Int) : List (BitVec 8) := (List.range n).map fun k => BitVec.ofInt 8 (v / 256 ^ k)

theorem serialise_eq_bytesOf (hW : 1 ≤ W) (hv : IsWord W v) : serialise W v = bytesOf (wordBytes W) v := by
  refine List.map_congr_left fun k hk => ?_
  rw [ofInt_signExtend_of_isWord hW hv, extract_byte (List.mem_range.1 hk)]

theorem bytesOf_succ (n : Nat) (v : Int) : bytesOf (n + 1) v = BitVec.ofInt 8 v :: bytesOf n (v / 256) := by
  have shifted : ∀ k, v / 256 ^ (k + 1) = v / 256 / 256 ^ k := fun k => by
    rw [pow_succ', Int.ediv_ediv_of_nonneg (by decide)]
  simp [bytesOf, List.range_succ_eq_map, Function.comp_def, shifted]

/-- Reading `n` bytes gives the number modulo 256 ^ n. -/
theorem bytesToNat_bytesOf (n : Nat) (v : Int) : (bytesToNat (bytesOf n v) : Int) = v % 256 ^ n := by
  induction n generalizing v with
  | zero => simp [bytesOf, bytesToNat]
  | succ n ih =>
    have lowest : ((BitVec.ofInt 8 v).toNat : Int) = v % 256 := by
      rw [BitVec.toNat_ofInt]
      exact Int.toNat_of_nonneg (Int.emod_nonneg _ (by decide))
    have digits : v % 256 ^ (n + 1) = v % 256 + 256 * (v / 256 % 256 ^ n) := by
      rw [pow_succ', Int.emod_def, Int.emod_def v 256, Int.emod_def (v / 256), Int.ediv_ediv_of_nonneg (by decide)]
      ring
    rw [bytesOf_succ, bytesToNat, digits, ← ih, ← lowest]
    push_cast
    rfl

/-! ### Reading back -/

theorem deserialise_serialise (hW : 1 ≤ W) (hv : IsWord W v) : deserialise W (serialise W v) = v := by
  have wide : (2 ^ W : Int) ∣ 256 ^ wordBytes W := by
    rw [show (256 : Int) = 2 ^ 8 from rfl, ← pow_mul]
    exact pow_dvd_pow 2 (by unfold wordBytes; omega)
  have congruent : (bytesToNat (bytesOf (wordBytes W) v) : Int) % (2 ^ W : Nat) = v % (2 ^ W : Nat) := by
    rw [bytesToNat_bytesOf]
    exact_mod_cast Int.emod_emod_of_dvd v wide
  rw [serialise_eq_bytesOf hW hv, deserialise, ← BitVec.ofInt_natCast, BitVec.toInt_ofInt, ← Int.emod_bmod, congruent,
    Int.emod_bmod]
  exact wrapW_of_isWord hW hv

/-- Settles O10: the byte form is `bytesOf`, whose entries are the digits by definition. -/
theorem wordBytesAreLittleEndianSignExtended : Obligations.WordBytesAreLittleEndianSignExtended := by
  intro W v hW hv
  refine ⟨by simp [serialise, wordBytes], fun k hk => ?_, deserialise_serialise hW hv⟩
  rw [serialise_eq_bytesOf hW hv, bytesOf, List.getElem?_map, List.getElem?_range (n := wordBytes W) hk]
  rfl

/-! ### A program -/

/-- Every cell of a well-formed program's image is a word (30_encoding.md R80). -/
theorem isWord_of_mem_assemble (hW : 8 ≤ W) {is : List Instr} (h : ProgramWellFormed W is) :
    ∀ v ∈ assemble is, IsWord W v := by
  induction is with
  | nil => exact List.forall_mem_nil _
  | cons i is ih =>
    obtain ⟨head, tail⟩ := List.forall_mem_cons.1 h
    rw [assemble, encode, List.forall_mem_append, List.forall_mem_cons]
    exact ⟨⟨isWord_id hW _, fun k hk => head k (by simpa using hk)⟩, ih tail⟩

/-- Settles O9: the cells are words, so each comes back from its bytes, and the image decodes to the program. -/
theorem programSurvivesByteSerialisation : Obligations.ProgramSurvivesByteSerialisation := by
  intro W is hW wellFormed
  have words := isWord_of_mem_assemble hW wellFormed
  have unchanged : (assemble is).map (fun v => deserialise W (serialise W v)) = assemble is := by
    rw [List.map_congr_left fun v hv => deserialise_serialise (by omega) (words v hv), List.map_id']
  rw [unchanged, disassemble_assemble]

end Sys2Proof.Machine
end

section
/-! The proofs about the arithmetic on words (00_scope.md R11, 41_arithmetic.md R114, R115): `wrapW` as the unique congruent word,
the truncated quotient, and the operations of W-bit two's complement. -/

open Sys2Proof.Claims

namespace Sys2Proof.Machine

variable {s : State} {a b : StackEntry} {rest : List StackEntry} {W : Nat} {x y : Int}

/-! ### The wrapped word -/

theorem wrapW_eq_of_dvd_sub (h : (2 ^ W : Int) ∣ y - x) : wrapW W y = wrapW W x := by
  have congruent : y % (2 ^ W : Nat) = x % (2 ^ W : Nat) :=
    Int.emod_eq_emod_iff_emod_sub_eq_zero.2 (Int.emod_eq_zero_of_dvd (by exact_mod_cast h))
  rw [wrapW, wrapW, ← Int.emod_bmod, congruent, Int.emod_bmod]

/-- Settles O22: a word is its own wrapped value, and congruent numbers wrap alike. -/
theorem wrapIsTheUniqueCongruentWord : Obligations.WrapIsTheUniqueCongruentWord :=
  fun W x hW => ⟨isWord_wrapW hW x, dvd_wrapW_sub W x, fun y hy h => by
    rw [← wrapW_eq_of_dvd_sub h, wrapW_of_isWord hW hy]⟩

/-! ### The truncated quotient -/

/-- The least word by -1 is one above the greatest. -/
theorem truncDiv_least_not_isWord (W : Nat) : ¬ IsWord W (truncDiv (-(2 ^ (W - 1) : Nat)) (-1)) := by
  rw [truncDiv, Int.tdiv_neg, Int.tdiv_one, neg_neg]
  unfold IsWord wordMin wordMax
  omega

/-- Settles O21: `truncDiv` is the truncated quotient, which leaves the word range in one case only. -/
theorem divisionTruncatesTowardZero : Obligations.DivisionTruncatesTowardZero := by
  refine ⟨fun b a _ => truncQuotient_truncDiv b a, fun W b a _ hb _ _ => ⟨fun outside => ?_, ?_⟩⟩
  · exact operands_of_truncQuotient_not_isWord (truncQuotient_truncDiv b a) hb outside
  · rintro ⟨rfl, rfl⟩
    exact truncDiv_least_not_isWord W

/-! ### Two's complement -/

/-- Under `wrap` an arithmetic instruction of width 1 completes with any bit vector whose signed value is the wrapped result. -/
theorem finishArith_eq_replaceTwo {op : Opcode} (hwidth : op.width = 1) (wrap : s.params.overflow = .wrap)
    (hs : s.stack = a :: b :: rest) {v : BitVec s.params.wordBits} (hv : v.toInt = wrapW s.params.wordBits x) :
    finishArith op x s = replaceTwo s rest v := by
  rw [finishArith_of_not_fault hs (by simp [wrap]), hwidth, replaceTwo, hv, Nat.cast_one]

theorem toInt_sdiv_ofInt (hW : 1 ≤ W) (hb : IsWord W y) (ha : IsWord W x) :
    ((BitVec.ofInt W y).sdiv (BitVec.ofInt W x)).toInt = wrapW W (truncDiv y x) := by
  have value : ∀ z, IsWord W z → (BitVec.ofInt W z).toInt = z := fun z hz => by
    rw [BitVec.toInt_ofInt]
    exact wrapW_of_isWord hW hz
  rw [BitVec.toInt_sdiv, value y hb, value x ha, wrapW, truncDiv]

/-- Settles O23: a bit vector made from a number has the number's wrapped value, and so have sums, differences and products; the
signed division wraps the truncated quotient. -/
theorem wrapArithmeticIsTwosComplement : Obligations.WrapArithmeticIsTwosComplement := by
  intro s a b rest legal wrap hs
  refine ⟨?_, ?_, ?_, fun ha hb nonzero => ?_⟩
  · rw [exec_add, needTwo_cons hs, ← BitVec.ofInt_add]
    exact finishArith_eq_replaceTwo rfl wrap hs (BitVec.toInt_ofInt _)
  · rw [exec_sub, needTwo_cons hs, BitVec.sub_eq_add_neg, ← BitVec.ofInt_neg, ← BitVec.ofInt_add, ← Int.sub_eq_add_neg]
    exact finishArith_eq_replaceTwo rfl wrap hs (BitVec.toInt_ofInt _)
  · rw [exec_mul, needTwo_cons hs, ← BitVec.ofInt_mul]
    exact finishArith_eq_replaceTwo rfl wrap hs (BitVec.toInt_ofInt _)
  · rw [exec_div_of_ne_zero hs nonzero]
    exact finishArith_eq_replaceTwo rfl wrap hs (toInt_sdiv_ofInt (one_le_wordBits_of_legal legal) hb ha)

end Sys2Proof.Machine
end

section
/-! The proofs about what every instruction changes and leaves unchanged (10_state.md R21, R25, R30; 60_exceptions.md R181, R182,
R186): each is read off `Effect` for an instruction that completes, and off `Raises` for one that does not. -/

open Sys2Proof.Claims

namespace Sys2Proof.Machine

variable {i : Instr} {s t : State} {op : Opcode} {k x : Int} {c : Condition}

/-- `exec_cases` with the completed state field by field. -/
theorem exec_effect_cases (h : exec i s = .next t) :
    Effect i s t ∨ ∃ c x, Raises i s c x ∧ t = s.enterFault c i.opcode.id x :=
  (exec_cases h).imp_left effect_of_completes

/-! ### The frame -/

/-- Settles O35: a completed instruction by its effect, a fatal condition by the entry into FAULTED. -/
theorem frameOfEveryInstruction : Obligations.FrameOfEveryInstruction := by
  intro i s t h
  rcases exec_effect_cases h with e | ⟨c, x, -, rfl⟩
  · refine ⟨e.params, e.host, e.loadStatus, fun notStore y => ?_, fun notPrint => ?_, .inr ⟨e.faultRecord, fun notHalt => ?_⟩⟩
    · obtain kept | ⟨k, a, rest, rfl, -⟩ := memAfter_cases i s
      · rw [e.mem, kept]
      · exact absurd rfl (notStore k)
    · obtain kept | ⟨a, rest, rfl, -⟩ := outputAfter_cases i s
      · rw [e.output, kept]
      · exact absurd rfl notPrint
    · rw [e.runState, if_neg notHalt]
  · exact ⟨rfl, rfl, rfl, fun _ _ => rfl, fun _ => rfl, .inl ⟨c.code, x, rfl⟩⟩

/-! ### What `ip` does -/

/-- Settles O41: `IpRule` holds of a completed instruction, and a fatal condition leaves `ip`. -/
theorem instructionPointerMovesByRule : Obligations.InstructionPointerMovesByRule := by
  intro i s t notFaulted h
  rcases exec_effect_cases h with e | ⟨c, x, raises, rfl⟩
  · have moved := e.ip
    refine ⟨?_, fun _ => ?_⟩
    · rintro (faulted | rfl)
      · rw [e.runState] at faulted
        split at faulted
        · cases faulted
        · exact absurd faulted notFaulted
      · exact moved
    · cases i with
      | halt => exact e.runState
      | _ => exact moved
  · exact ⟨fun _ => rfl, fun notFaulted => absurd rfl notFaulted⟩

/-! ### The conditions of an instruction's own rule -/

theorem code_injective : Function.Injective Condition.code := by
  intro c d h
  cases c <;> cases d <;> simp_all [Condition.code]

/-- A condition of the instruction's own rule is the only way into FAULTED. -/
theorem raises_of_faulted (h : exec i s = .next t) (notFaulted : s.runState ≠ .faulted) (faulted : t.runState = .faulted) :
    ∃ c x, Raises i s c x ∧ t = s.enterFault c i.opcode.id x := by
  refine (exec_effect_cases h).resolve_left fun e => ?_
  rw [e.runState] at faulted
  split at faulted
  · cases faulted
  · exact notFaulted faulted

/-- A narrow block with every check on, and with room for one entry where StackOverflow is to be raised. -/
def raisingParams (code : BitVec 4) : Params where
  wordBits := 8
  memCap := 1
  stackCap := if code = 6 then some 1 else none
  overflow := .fault
  printConsumes := false
  debugRaCheck := true

/-- The words on the stack where the condition with the code is to be raised, the top first. -/
def raisingStack (op : Opcode) (code : BitVec 4) : List Int :=
  if code = 2 then [] else if code = 3 then [0, 5] else if code = 7 then [if op = .sub then 1 else -1, -128] else [5]

/-- A state of the invariant in which an instruction of opcode `op` with the operand `raisingOperand code` raises the condition
with the code. -/
def raisingState (op : Opcode) (code : BitVec 4) : State :=
  { State.resetOf (raisingParams code) with
    runState := .running
    stack := (raisingStack op code).map fun v => { word := v, tag := false } }

/-- An address that is not valid for AddressOutOfRange, otherwise a valid one. -/
def raisingOperand (code : BitVec 4) : Int := if code = 4 then 1 else 0

/-- FAULT_CODE of an answer that is FAULTED. -/
def raisedCode : Result → Option (BitVec 4)
  | .next t => if t.runState = .faulted then some t.faultRecord.code else none
  | .fault _ => none
  | .refused _ => none

theorem raisedCode_eq_some {r : Result} {code : BitVec 4} :
    raisedCode r = some code ↔ ∃ t, r = .next t ∧ t.runState = .faulted ∧ t.faultRecord.code = code := by
  cases r <;> simp [raisedCode]

theorem raisingState_raises (op : Opcode) : ∀ code ∈ ownCodes op, (raisingState op code).Inv ∧
    raisedCode (exec (op.instr (raisingOperand code)) (raisingState op code)) = some code := by
  cases op <;> decide

/-- Settles O37: the conditions of `Raises` are the listed ones, and `raisingState` shows each of them. -/
theorem instructionsRaiseOnlyTheirConditions : Obligations.InstructionsRaiseOnlyTheirConditions := by
  refine ⟨fun i s t notFaulted h faulted => ?_, fun op code listed => ?_⟩
  · obtain ⟨c, x, raises, rfl⟩ := raises_of_faulted h notFaulted faulted
    exact (code_mem_of_raises raises).1
  · obtain ⟨inv, raised⟩ := raisingState_raises op code listed
    obtain ⟨t, ht, faulted, hcode⟩ := raisedCode_eq_some.1 raised
    exact ⟨_, t, _, inv, rfl, ht, faulted, hcode⟩

/-! ### What the conditions with parameters say of the state -/

theorem raises_stackOverflow (h : Raises i s .stackOverflow x) :
    i.opcode ∈ ([.push, .call, .load] : List Opcode) ∧ s.params.stackCap = some s.stack.length := by
  cases i <;> simp_all [Raises, RaisesArith, Instr.opcode]

theorem raises_arithmeticOverflow (h : Raises i s .arithmeticOverflow x) : s.params.overflow = .fault := by
  cases i <;> simp_all [Raises, RaisesArith]

theorem raises_badReturnAddress (h : Raises i s .badReturnAddress x) : s.params.debugRaCheck = true := by
  cases i <;> simp_all [Raises, RaisesArith]

/-- With too few entries an instruction raises StackUnderflow (10_state.md R27). -/
theorem raises_of_short (h : s.stack.length < needs i.opcode) : Raises i s .stackUnderflow 0 := by
  cases i with
  | halt | push k | jump k | call k | load k => exact absurd h (Nat.not_lt_zero _)
  | pop | print => exact ⟨rfl, rfl, List.eq_nil_of_length_eq_zero (Nat.lt_one_iff.1 h)⟩
  | ret => exact ⟨rfl, .inl ⟨rfl, List.eq_nil_of_length_eq_zero (Nat.lt_one_iff.1 h)⟩⟩
  | store k => exact .inl ⟨rfl, rfl, List.eq_nil_of_length_eq_zero (Nat.lt_one_iff.1 h)⟩
  | add | sub | mul => exact ⟨rfl, .inl ⟨rfl, h⟩⟩
  | div =>
    refine ⟨rfl, .inl ⟨.inl ⟨rfl, h⟩, fun a b rest hs => ?_⟩⟩
    rw [hs] at h
    exact absurd h (by simp [needs, Instr.opcode])
  | jumpIfEqual k | jumpIfNotEqual k | jumpIfLessThan k | jumpIfGreaterThan k | jumpIfLessThanOrEqual k
  | jumpIfGreaterThanOrEqual k => exact ⟨rfl, rfl, h⟩

/-! ### The stack-effect table -/

/-- Settles O39: the table is `Effect`'s account of the stack; too few entries raise, and only a push can overflow. -/
theorem stackEffectsFollowTheTable : Obligations.StackEffectsFollowTheTable := by
  intro i s t notFaulted h
  refine ⟨fun short => ?_, fun completed => ?_, fun faulted code => ?_⟩
  · rw [exec_of_raises (raises_of_short short)] at h
    exact (Host.Outcome.next.inj h).symm
  · rcases exec_effect_cases h with e | ⟨c, x, -, rfl⟩
    · obtain ⟨top, stack, pushed, -⟩ := e.stack
      exact ⟨e.enough, effect_length e, by rw [stack, ← pushed, List.drop_left]⟩
    · exact absurd rfl completed
  · obtain ⟨c, x, raises, rfl⟩ := raises_of_faulted h notFaulted faulted
    obtain rfl : c = .stackOverflow := code_injective code
    exact raises_stackOverflow raises

end Sys2Proof.Machine
end

section
/-! The proof that only the top two entries of the stack are read (10_state.md R28): what completes and what is raised does so with
the deeper entries replaced by others, as many. -/

open Sys2Proof.Claims

namespace Sys2Proof.Machine

variable {i : Instr} {s t : State} {op : Opcode} {k x : Int} {c : Condition} {a b : StackEntry} {deep deep' : List StackEntry}

theorem completesArith_replaceDeep {f : Int → Int → Int} (h : CompletesArith op f { s with stack := a :: b :: deep } t) :
    ∃ top, t.stack = top ++ deep ∧
      CompletesArith op f { s with stack := a :: b :: deep' } { t with stack := top ++ deep' } := by
  obtain ⟨x, ⟨_, _, _, hs, rfl⟩, fits, rfl⟩ := h
  cases hs
  exact ⟨[_], rfl, _, ⟨a, b, deep', rfl, rfl⟩, fits, rfl⟩

theorem completesJump_replaceDeep {r : Comparison} (h : CompletesJump op r k { s with stack := a :: b :: deep } t) :
    ∃ top, t.stack = top ++ deep ∧
      CompletesJump op r k { s with stack := a :: b :: deep' } { t with stack := top ++ deep' } := by
  obtain ⟨_, _, _, hs, rfl⟩ := h
  cases hs
  refine ⟨[], ?_, a, b, deep', rfl, ?_⟩ <;> split <;> rfl

theorem completes_replaceDeep (hlen : deep.length = deep'.length) (h : Completes i { s with stack := a :: b :: deep } t) :
    ∃ top, t.stack = top ++ deep ∧ Completes i { s with stack := a :: b :: deep' } { t with stack := top ++ deep' } := by
  have room : s.params.stackCap ≠ some (a :: b :: deep).length → s.params.stackCap ≠ some (a :: b :: deep').length := by
    simp only [List.length_cons, hlen, imp_self]
  cases i with
  | halt =>
    cases h
    exact ⟨[a, b], rfl, rfl⟩
  | push k =>
    obtain ⟨fits, rfl⟩ := h
    exact ⟨[_, a, b], rfl, room fits, rfl⟩
  | pop =>
    obtain ⟨-, rfl⟩ := h
    exact ⟨[b], rfl, ⟨a, _, rfl⟩, rfl⟩
  | add | sub | mul => exact completesArith_replaceDeep h
  | div =>
    obtain ⟨nonzero, h⟩ := h
    obtain ⟨top, ht, h⟩ := completesArith_replaceDeep h
    refine ⟨top, ht, fun _ _ hs => ?_, h⟩
    cases hs
    exact nonzero a _ rfl
  | jump k =>
    cases h
    exact ⟨[a, b], rfl, rfl⟩
  | jumpIfEqual k | jumpIfNotEqual k | jumpIfLessThan k | jumpIfGreaterThan k | jumpIfLessThanOrEqual k
  | jumpIfGreaterThanOrEqual k => exact completesJump_replaceDeep h
  | call k =>
    obtain ⟨fits, rfl⟩ := h
    exact ⟨[_, a, b], rfl, room fits, rfl⟩
  | ret =>
    obtain ⟨_, _, hs, tagged, rfl⟩ := h
    cases hs
    exact ⟨[b], rfl, a, _, rfl, tagged, rfl⟩
  | print =>
    obtain ⟨_, _, hs, rfl⟩ := h
    cases hs
    by_cases consumes : s.params.printConsumes = true
    · exact ⟨[b], by simp [consumes], a, _, rfl, by simp only [consumes, if_true]; rfl⟩
    · exact ⟨[a, b], by simp [consumes], a, _, rfl, by simp only [consumes]; rfl⟩
  | store k =>
    obtain ⟨_, _, hs, valid, rfl⟩ := h
    cases hs
    exact ⟨[b], rfl, a, _, rfl, valid, rfl⟩
  | load k =>
    obtain ⟨valid, fits, rfl⟩ := h
    exact ⟨[_, a, b], rfl, valid, room fits, rfl⟩

/-- What is raised above two entries depends on the deeper ones by their number alone. -/
theorem raises_replaceDeep (hlen : deep.length = deep'.length) (h : Raises i { s with stack := a :: b :: deep } c x) :
    Raises i { s with stack := a :: b :: deep' } c x := by
  cases i <;> simp_all [Raises, RaisesArith, TwoOn]

/-- Settles O40: the instruction completes or raises with either stack alike. -/
theorem onlyTheTopTwoEntriesAreRead : Obligations.OnlyTheTopTwoEntriesAreRead := by
  intro i s t a b deep deep' hlen h
  rcases exec_cases h with completes | ⟨c, x, raises, rfl⟩
  · obtain ⟨top, ht, completes'⟩ := completes_replaceDeep hlen completes
    exact ⟨top, ht, exec_of_completes completes'⟩
  · exact ⟨[a, b], rfl, exec_of_raises (raises_replaceDeep hlen raises)⟩

end Sys2Proof.Machine
end

section
/-! The proofs about one step (30_encoding.md R76; 10_state.md R33, R40 to R45; 60_exceptions.md R183, R186, R200): that there always
is one, how the dispatch step ends, and the transitions of RUN_STATE. -/

open Sys2Proof.Claims

namespace Sys2Proof.Machine

variable {i : Instr} {s t : State} {op : Opcode} {k x : Int} {c : Condition} {a : StackEntry} {rest : List HostMove}

/-! ### There is a step -/

theorem runFetched_isNext (s : State) (f : Fetched) : ∃ t, runFetched s f = .next t := by
  cases f with
  | instr i => exact exec_isNext i s
  | raised c o a => exact ⟨_, rfl⟩

theorem step_isNext (legal : s.params.Legal) : ∃ t, step s = .next t := by
  rcases host_cases s with idle | ⟨rest, hs⟩ | ⟨image, rest, hs⟩ | ⟨rest, hs⟩
  · by_cases running : s.runState = .running
    · rw [step_of_dispatching ⟨legal, running, idle⟩]
      exact runFetched_isNext _ _
    · exact ⟨_, step_of_stopped legal idle running⟩
  · exact ⟨_, step_of_host_reset legal hs⟩
  · exact ⟨_, step_of_load legal hs⟩
  · exact ⟨_, step_of_start legal hs⟩

theorem hostLoad_params_host (image : List Int) (s : State) :
    (hostLoad image s).params = s.params ∧ (hostLoad image s).host = s.host := by
  obtain e | ⟨-, e | ⟨-, e⟩⟩ := hostLoad_cases image s <;> rw [e] <;> exact ⟨rfl, rfl⟩

theorem exec_params_host (h : exec i s = .next t) : t.params = s.params ∧ t.host = s.host := by
  obtain ⟨params, host, -⟩ := frameOfEveryInstruction i s t h
  exact ⟨params, host⟩

/-- No step changes the parameters, and every step reads one move of the host. -/
theorem step_params_host (h : step s = .next t) : t.params = s.params ∧ t.host = s.host.tail := by
  rcases step_cases h with hd | ⟨-, -, rfl⟩ | ⟨rest, hs, rfl⟩ | ⟨image, rest, hs, rfl⟩ | ⟨rest, hs, rfl⟩
  · cases hf : fetch s with
    | instr i =>
      rw [step_of_fetch_instr hd hf] at h
      exact exec_params_host h
    | raised c o a =>
      rw [step_of_fetch_raised hd hf] at h
      obtain rfl := Host.Outcome.next.inj h
      exact ⟨rfl, rfl⟩
  · exact ⟨rfl, rfl⟩
  · rw [hs]
    exact ⟨rfl, rfl⟩
  · exact hostLoad_params_host image (afterIdle s)
  · rw [hostStart_eq]
    exact ⟨rfl, rfl⟩

/-- Settles O4: every kind of step answers a next state. -/
theorem legalInstanceAlwaysSteps : Obligations.LegalInstanceAlwaysSteps := by
  intro s legal
  obtain ⟨t, h⟩ := step_isNext legal
  exact ⟨t, h, step_params_host h⟩

/-- Settles O5: legality is the first thing a step looks at. -/
theorem illegalInstanceIsRefused : Obligations.IllegalInstanceIsRefused := fun _ illegal => if_neg illegal

/-! ### What the cells at `ip` decode to -/

/-- The first two cells from `ip`, where there is a first one. -/
theorem cellsFrom_two (s : State) (valid : Valid s s.ip) :
    s.cellsFrom s.ip 2 = s.mem.read s.ip.toNat :: (s.memRead (s.ip + 1)).toList := by
  simp only [State.cellsFrom, State.memRead_of_valid valid]
  cases s.memRead (s.ip + 1) <;> rfl

theorem fetch_of_decode {cells : List Int} (h : decode (s.cellsFrom s.ip 2) = .ok (i, cells)) : fetch s = .instr i := by
  by_cases valid : Valid s s.ip
  · rw [cellsFrom_two s valid] at h
    rw [fetch, State.memRead_of_valid valid]
    simp only [decode] at h ⊢
    cases hop : decodeOpcode (s.mem.read s.ip.toNat) with
    | none => simp [hop] at h
    | some op =>
      by_cases zero : op.arity = 0
      · simp_all
      · cases hk : s.memRead (s.ip + 1) <;> simp_all
  · simp [State.cellsFrom, State.memRead_of_not_valid valid, decode] at h

/-- Settles O6: the decoder computes each of the words. -/
theorem wordsOfTheOpcodeMapDecode : Obligations.WordsOfTheOpcodeMapDecode := by
  unfold Obligations.WordsOfTheOpcodeMapDecode
  decide

/-- Settles O12: the fetch reads the cells that `decode` is given. -/
theorem stepRunsTheDecodedInstruction : Obligations.StepRunsTheDecodedInstruction :=
  fun _ _ _ hd h => step_of_fetch_instr hd (fetch_of_decode h)

/-- Settles O16: 0 is the opcode of Halt, which has no operand cell. -/
theorem zeroCellHalts : Obligations.ZeroCellHalts := by
  intro s hd valid zero
  rw [step_of_fetch_instr hd (fetch_of_arity_zero (op := .halt) valid zero.symm rfl)]
  rfl

/-! ### How a dispatch step comes to end FAULTED -/

/-- A dispatch step that ends FAULTED entered it by a condition the fetch or the fetched instruction raises. -/
theorem dispatching_of_faulted (hd : Dispatching s) (h : step s = .next t) (faulted : t.runState = .faulted) :
    ∃ c o a, t = (afterIdle s).enterFault c o a ∧
      (c = .invalidOpcode ∨ c = .addressOutOfRange ∨ ∃ i, Raises i (afterIdle s) c a) := by
  have ⟨_, running, _⟩ := hd
  rcases dispatching_cases hd h with ⟨c, o, a, hf, rfl⟩ | ⟨i, hf, completes | ⟨c, x, raises, rfl⟩⟩
  · refine ⟨c, o, a, rfl, ?_⟩
    rcases fetch_eq_raised hf with ⟨rfl, -⟩ | ⟨-, -, ⟨rfl, -⟩ | ⟨rfl, -⟩⟩
    · exact .inr (.inl rfl)
    · exact .inl rfl
    · exact .inr (.inl rfl)
  · obtain ⟨-, notFaulted, -⟩ := effect_runState (s := afterIdle s) running (effect_of_completes completes)
    exact absurd faulted notFaulted
  · exact ⟨c, _, x, rfl, .inr (.inr ⟨i, raises⟩)⟩

/-- Settles O36: the entry into FAULTED is the whole step, and ProgramTooLarge is no condition of it. -/
theorem faultsArePrecise : Obligations.FaultsArePrecise := by
  intro s t hd h faulted
  obtain ⟨c, o, a, rfl, rfl | rfl | ⟨i, raises⟩⟩ := dispatching_of_faulted hd h faulted
  · exact ⟨rfl, code_mem_of_ne (c := .invalidOpcode) (by decide)⟩
  · exact ⟨rfl, code_mem_of_ne (c := .addressOutOfRange) (by decide)⟩
  · obtain ⟨-, possible, -⟩ := code_mem_of_raises raises
    exact ⟨rfl, code_mem_of_ne possible⟩

/-- Settles O38: the three conditions are raised by an instruction's own rule alone, which reads the parameter. -/
theorem codesSixToEightNeedTheirParameters : Obligations.CodesSixToEightNeedTheirParameters := by
  intro s t hd h faulted
  obtain ⟨c, o, a, rfl, origin⟩ := dispatching_of_faulted hd h faulted
  have raised (d : Condition) (hc : c.code = d.code) (h1 : d ≠ .invalidOpcode) (h2 : d ≠ .addressOutOfRange) :
      ∃ i, Raises i (afterIdle s) d a := by
    obtain rfl := code_injective hc
    exact (origin.resolve_left h1).resolve_left h2
  refine ⟨fun h6 => ?_, fun h7 => ?_, fun h8 => ?_⟩
  · obtain ⟨i, raises⟩ := raised .stackOverflow h6 (by decide) (by decide)
    exact ⟨_, (raises_stackOverflow raises).2⟩
  · obtain ⟨i, raises⟩ := raised .arithmeticOverflow h7 (by decide) (by decide)
    exact raises_arithmeticOverflow raises
  · obtain ⟨i, raises⟩ := raised .badReturnAddress h8 (by decide) (by decide)
    exact raises_badReturnAddress raises

/-! ### The step after an instruction -/

/-- An instruction that leaves the block RUNNING leaves it dispatching: the host's moves are the step's, not the instruction's. -/
theorem dispatching_of_exec (hd : Dispatching s) (h : exec i s = .next t) (running : t.runState = .running) :
    Dispatching t := by
  obtain ⟨legal, -, idle⟩ := hd
  obtain ⟨params, host⟩ := exec_params_host h
  exact ⟨params ▸ legal, running, by rwa [NoCommand, host]⟩

/-- Settles O33: the opcode fetch of the next step raises, and records `ip`. -/
theorem invalidTargetFaultsAtTheNextFetch : Obligations.InvalidTargetFaultsAtTheNextFetch :=
  fun _ _ _ _ hd h running invalid =>
    ⟨_, step_of_fetch_raised (dispatching_of_exec hd h running) (fetch_of_not_valid_ip invalid), rfl, rfl⟩

/-- Settles O34: after the Store `ip` is the written cell, which the opcode fetch reads. -/
theorem storeIsSeenByTheNextFetch : Obligations.StoreIsSeenByTheNextFetch := by
  intro s t a rest hd wf hs valid h
  have ⟨_, running, _⟩ := hd
  rw [exec_store_of_valid hs valid] at h
  obtain rfl := Host.Outcome.next.inj h
  have written : (s.mem.write (s.ip + 2).toNat a.word).read (s.ip + 2).toNat = a.word := by
    rw [Memory.read_write wf, if_pos rfl]
  obtain ⟨-, clauses⟩ := dispatchStepFetchesAndChecks _
    (dispatching_of_exec hd (exec_store_of_valid hs valid) running)
  obtain ⟨invalidOpcode, opcode⟩ := clauses valid
  rw [written] at invalidOpcode
  refine ⟨memRead_eq_some.2 ⟨validAddr_iff.2 valid, written⟩, invalidOpcode, fun op hop zero => ?_⟩
  obtain ⟨width1, -⟩ := opcode op (hop.trans written.symm)
  exact width1 zero

/-- Settles O28: Call pushes the address after it with the tag Return asks for, and Return sets `ip` to it. -/
theorem returnResumesAfterTheCall : Obligations.ReturnResumesAfterTheCall := by
  intro k s t u room h hstack hparams
  rw [exec_call_of_room room] at h
  obtain rfl := Host.Outcome.next.inj h
  refine exec_ret_of_returnAddress hstack ?_
  rw [hparams]
  cases s.params.debugRaCheck
  · exact .inl rfl
  · exact .inr rfl

/-! ### The host's commands -/

/-- Settles O48: START is the whole step. -/
theorem startCommandFollowsItsRule : Obligations.StartCommandFollowsItsRule := by
  intro s rest legal hs
  rw [step_of_start legal hs, hostStart_eq, afterIdle_of_cons hs]

/-- Settles O52: the port shows each register. -/
theorem statusPortShowsTheRegisters : Obligations.StatusPortShowsTheRegisters := by
  refine fun s => ⟨?_, rfl, rfl, rfl, rfl, rfl⟩
  rw [State.status]
  cases s.runState <;> rfl

/-- Settles O43: with no command there is no dispatch step, and neither LOAD nor START has an effect outside READY. -/
theorem stopStatesKeepEverythingUntilReset : Obligations.StopStatesKeepEverythingUntilReset := by
  intro s legal stopped noReset
  have notReady : s.runState ≠ .ready := by rcases stopped with h | h <;> simp [h]
  have notRunning : s.runState ≠ .running := by rcases stopped with h | h <;> simp [h]
  rcases host_cases s with idle | ⟨rest, hs⟩ | ⟨image, rest, hs⟩ | ⟨rest, hs⟩
  · exact step_of_stopped legal idle notRunning
  · exact absurd hs (noReset rest)
  · rw [step_of_load legal hs, hostLoad_of_not_ready (s := afterIdle s) notReady]
  · rw [step_of_start legal hs, hostStart_eq, if_neg (show (afterIdle s).runState ≠ .ready from notReady)]

/-! ### The transitions of RUN_STATE -/

theorem dispatching_runState (hd : Dispatching s) (h : step s = .next t) :
    t.runState ≠ .ready ∧ (t.runState = .halted ↔ fetch s = .instr .halt) := by
  have ⟨_, running, _⟩ := hd
  rcases dispatching_cases hd h with ⟨c, o, a, hf, rfl⟩ | ⟨i, hf, completes | ⟨c, x, raises, rfl⟩⟩ <;> rw [hf]
  · exact ⟨nofun, nofun, nofun⟩
  · obtain ⟨notReady, -, halted⟩ := effect_runState (s := afterIdle s) running (effect_of_completes completes)
    exact ⟨notReady, halted.trans (by simp)⟩
  · refine ⟨nofun, nofun, fun halt => ?_⟩
    cases halt
    exact raises.elim

/-- A dispatch step ends FAULTED exactly when a condition of R183's list holds. -/
theorem dispatching_faulted_iff (hd : Dispatching s) (h : step s = .next t) :
    t.runState = .faulted ↔ ∃ c ∈ priorityList s, c.holds = true := by
  obtain ⟨u, hu, reported⟩ := stepReportsTheFirstConditionOfThePriorityList s hd
  obtain rfl := Host.Outcome.next.inj (h.symm.trans hu)
  cases first : (priorityList s).find? PriorityLine.holds with
  | some c =>
    rw [first] at reported
    exact ⟨fun _ => ⟨c, List.mem_of_find?_eq_some first, List.find?_some first⟩, fun _ => reported ▸ rfl⟩
  | none =>
    rw [first] at reported
    exact ⟨fun faulted => absurd faulted reported, fun ⟨c, hc, holds⟩ =>
      absurd holds (List.find?_eq_none.1 first c hc)⟩

theorem code_ne_zero_of_dispatching (hd : Dispatching s) (h : step s = .next t) (faulted : t.runState = .faulted) :
    t.faultRecord.code ≠ 0 := by
  obtain ⟨-, listed⟩ := faultsArePrecise s t hd h faulted
  intro zero
  rw [zero] at listed
  exact absurd listed (by decide)

theorem hostLoad_runState (image : List Int) (s : State) : (hostLoad image s).runState = s.runState := by
  obtain e | ⟨-, e | ⟨-, e⟩⟩ := hostLoad_cases image s <;> rw [e]

/-- Without RESET only a dispatch step and a START in READY change RUN_STATE. -/
theorem step_runState_of_not_dispatching (h : step s = .next t) (noReset : ∀ rest, s.host ≠ .reset :: rest)
    (hd : ¬ Dispatching s) :
    t.runState = if s.runState = .ready ∧ s.host.head? = some .start then .running else s.runState := by
  rcases step_cases h with hd' | ⟨idle, -, rfl⟩ | ⟨rest, hs, rfl⟩ | ⟨image, rest, hs, rfl⟩ | ⟨rest, hs, rfl⟩
  · exact absurd hd' hd
  · have noStart : s.host.head? ≠ some .start := by rcases idle with hs | ⟨rest, hs⟩ <;> simp [hs]
    rw [if_neg fun ⟨_, start⟩ => noStart start]
    rfl
  · exact absurd hs (noReset rest)
  · rw [hostLoad_runState, hs, if_neg (by simp)]
    rfl
  · rw [hostStart_eq, hs]
    simp only [List.head?_cons, and_true]
    rfl

/-- Settles O42: RESET gives READY; a dispatch step ends as the fetch and the priority list say; any other step changes RUN_STATE
only by START in READY. -/
theorem runStateTransitions : Obligations.RunStateTransitions := by
  intro s t h
  refine ⟨fun ⟨rest, hs⟩ => ?_, fun noReset => ?_⟩
  · rw [step_of_host_reset (legal_of_step h) hs] at h
    exact Host.Outcome.next.inj h ▸ rfl
  · have other := step_runState_of_not_dispatching h noReset
    cases hr : s.runState with
    | ready => simpa [hr] using other fun ⟨_, running, _⟩ => by simp [hr] at running
    | halted => simpa [hr] using other fun ⟨_, running, _⟩ => by simp [hr] at running
    | faulted => simpa [hr] using other fun ⟨_, running, _⟩ => by simp [hr] at running
    | running =>
      by_cases hd : Dispatching s
      · have ⟨_, _, idle⟩ := hd
        obtain ⟨notReady, halted⟩ := dispatching_runState hd h
        exact ⟨notReady, by simpa [idle] using halted, by simpa [idle] using dispatching_faulted_iff hd h,
          code_ne_zero_of_dispatching hd h⟩
      · have running : t.runState = .running := by simpa [hr] using other hd
        have command : ¬ NoCommand s := fun idle => hd ⟨legal_of_step h, hr, idle⟩
        simp [running, command]

end Sys2Proof.Machine
end

section
/-! The proofs about memory (20_memory.md R50, R59; 10_state.md R42): canonical memories with equal cells, the cells a LOAD copies, the
accesses of a step, and that only writing accesses change a cell. -/

open Sys2Proof.Claims

namespace Sys2Proof.Machine

variable {i : Instr} {s t : State} {op : Opcode} {k : Int} {m n : Memory} {image : List Int} {rest : List HostMove}

/-! ### Canonical memories -/

/-- The first listed cell is the first that does not read 0, so equal memories begin alike. -/
theorem Memory.head_le_of_read_eq {c : Nat × Int} (hm : Memory.wf (c :: m)) (hn : n.wf)
    (h : ∀ x, Memory.read (c :: m) x = n.read x) : ∃ d n', n = d :: n' ∧ d.1 ≤ c.1 := by
  obtain ⟨-, nonzero, -⟩ := Memory.wf_cons.1 hm
  have listed : n.read c.1 = c.2 := by rw [← h, Memory.read_cons, if_pos rfl]
  cases n with
  | nil => exact absurd listed.symm nonzero
  | cons d n' =>
    obtain ⟨below, -, -⟩ := Memory.wf_cons.1 hn
    refine ⟨d, n', rfl, not_lt.1 fun lt => ?_⟩
    rw [Memory.read_of_lt (List.forall_mem_cons.2 ⟨lt, fun e he => lt.trans (below e he)⟩)] at listed
    exact nonzero listed.symm

/-- Settles O54: by induction on the two lists, whose first cells agree in address and so in word. -/
theorem canonicalMemoriesWithEqualCellsAreEqual : Obligations.CanonicalMemoriesWithEqualCellsAreEqual := by
  intro m n hm hn h
  induction m generalizing n with
  | nil =>
    cases n with
    | nil => rfl
    | cons d n' =>
      obtain ⟨_, _, e, -⟩ := Memory.head_le_of_read_eq hn hm fun x => (h x).symm
      cases e
  | cons c m ih =>
    obtain ⟨d, n, rfl, le⟩ := Memory.head_le_of_read_eq hm hn h
    obtain ⟨_, _, e, ge⟩ := Memory.head_le_of_read_eq hn hm fun x => (h x).symm
    cases e
    have address : c.1 = d.1 := le_antisymm ge le
    have word : c.2 = d.2 := by
      have first := h d.1
      rwa [Memory.read_cons, if_pos address, Memory.read_cons, if_pos rfl] at first
    obtain ⟨belowC, -, wfC⟩ := Memory.wf_cons.1 hm
    obtain ⟨belowD, -, wfD⟩ := Memory.wf_cons.1 hn
    refine congrArg₂ _ (Prod.ext address word) (ih n wfC wfD fun x => ?_)
    by_cases hx : x = c.1
    · subst hx
      rw [Memory.read_of_lt belowC, Memory.read_of_lt (address ▸ belowD)]
    · have later := h x
      rwa [Memory.read_cons, if_neg (Ne.symm hx), Memory.read_cons, if_neg (address ▸ Ne.symm hx)] at later

/-! ### The cells a LOAD copies -/

/-- A copied image is read back from its first cell upward; every other cell is as before. -/
theorem Memory.read_copy (hm : m.wf) (a : Nat) (image : List Int) (x : Nat) :
    (m.copy a image).read x = if x < a then m.read x else (image[x - a]?).getD (m.read x) := by
  induction image generalizing m a with
  | nil => simp [Memory.copy]
  | cons v image ih =>
    rw [Memory.copy, ih (Memory.wf_write hm a v), Memory.read_write hm]
    rcases lt_trichotomy x a with lt | rfl | gt
    · simp [lt, lt.ne, lt.trans (Nat.lt_succ_self a)]
    · simp
    · obtain ⟨d, rfl⟩ := Nat.exists_eq_add_of_lt gt
      have after : a + d + 1 - a = d + 1 := by omega
      have next : a + d + 1 - (a + 1) = d := by omega
      have notBefore : ¬ a + d + 1 < a := by omega
      have notAt : ¬ a + d < a := by omega
      simp [after, next, notBefore, notAt, (show a + d + 1 ≠ a by omega)]

theorem Memory.read_copy_zero (hm : m.wf) (image : List Int) (x : Nat) :
    (m.copy 0 image).read x = (image[x]?).getD (m.read x) := by
  rw [Memory.read_copy hm, if_neg (Nat.not_lt_zero x), Nat.sub_zero]

/-- Settles O47: the three cases of LOAD, the copy read back cell by cell. -/
theorem loadCommandFollowsItsRule : Obligations.LoadCommandFollowsItsRule := by
  intro s image rest legal hs
  rw [step_of_load legal hs, afterIdle_of_cons hs]
  refine ⟨fun notReady => ?_, fun ready large => ?_, fun ready fits wf => ?_⟩
  · exact congrArg _ (hostLoad_of_not_ready notReady)
  · exact congrArg _ (hostLoad_of_too_large ready large)
  · exact ⟨_, congrArg _ (hostLoad_of_fits ready fits), Memory.read_copy_zero wf image⟩

/-- Settles O50: three host commands are three steps, and the image is read back from the zero memory. -/
theorem bootLeavesTheImageRunning : Obligations.BootLeavesTheImageRunning := by
  intro s image legal fits hs
  have afterReset := step_of_host_reset legal hs
  have afterLoad := (step_of_load (s := { State.resetOf s.params with host := [.load image, .start] }) legal rfl).trans
    (congrArg _ (hostLoad_of_fits rfl fits))
  have afterStart := step_of_host_start (s := { State.resetOf s.params with
    host := [.start], mem := Memory.copy [] 0 image, loadStatus := 0 }) legal rfl rfl
  have boot := (runFor_succ afterReset 2).trans ((runFor_succ afterLoad 1).trans (runFor_succ afterStart 0))
  exact ⟨_, boot, rfl, rfl, rfl, rfl, rfl, rfl, rfl, rfl, Memory.wf_copy Memory.wf_nil 0 image, Memory.read_copy_zero Memory.wf_nil image⟩

/-! ### The accesses of a step -/

theorem accessAt_of_valid (h : Valid s k) (r : Requester) : accessAt s.params r k = [{ requester := r, addr := k }] :=
  if_pos (validAddr_iff.2 h)

theorem accessAt_of_not_valid (h : ¬ Valid s k) (r : Requester) : accessAt s.params r k = [] :=
  if_neg (mt validAddr_iff.1 h)

/-- The data access of an instruction: none, a Load's read or a Store's write, at a valid address. -/
theorem dataAccess_cases (i : Instr) (s : State) :
    dataAccess i s = [] ∨ ∃ k, Valid s k ∧
      (i = .load k ∧ dataAccess i s = [{ requester := .loadRead, addr := k }] ∨
        i = .store k ∧ s.stack ≠ [] ∧ dataAccess i s = [{ requester := .storeWrite, addr := k }]) := by
  cases i with
  | store k =>
    by_cases hk : Valid s k
    · by_cases hs : s.stack = []
      · exact .inl (if_pos (by simp [hs]))
      · refine .inr ⟨k, hk, .inr ⟨rfl, hs, ?_⟩⟩
        rw [dataAccess, if_neg (by simp [hs]), accessAt_of_valid hk]
    · exact .inl (by simp [dataAccess, accessAt_of_not_valid hk])
  | load k =>
    by_cases hk : Valid s k
    · exact .inr ⟨k, hk, .inl ⟨rfl, accessAt_of_valid hk _⟩⟩
    · exact .inl (accessAt_of_not_valid hk _)
  | _ => exact .inl rfl

/-- The accesses of the fetch: none, the opcode fetch, or both, at valid addresses. -/
theorem fetchAccesses_cases (s : State) :
    fetchAccesses s = [] ∨ Valid s s.ip ∧
      (fetchAccesses s = [{ requester := .opcodeFetch, addr := s.ip }] ∨
        Valid s (s.ip + 1) ∧ fetchAccesses s =
          [{ requester := .opcodeFetch, addr := s.ip }, { requester := .operandFetch, addr := s.ip + 1 }]) := by
  unfold fetchAccesses
  by_cases hip : Valid s s.ip
  · refine .inr ⟨hip, ?_⟩
    rw [accessAt_of_valid hip]
    split
    · exact .inl rfl
    · split
      · exact .inl rfl
      · by_cases hk : Valid s (s.ip + 1)
        · exact .inr ⟨hk, by rw [accessAt_of_valid hk]; rfl⟩
        · exact .inl (by rw [accessAt_of_not_valid hk]; rfl)
  · exact .inl (by rw [accessAt_of_not_valid hip, State.memRead_of_not_valid hip]; rfl)

/-- A data access follows an operand fetch: Load and Store have an operand. -/
theorem fetchAccesses_of_operand (hf : fetch s = .instr i) (hi : k ∈ i.operand?) :
    fetchAccesses s = [{ requester := .opcodeFetch, addr := s.ip }, { requester := .operandFetch, addr := s.ip + 1 }] := by
  obtain ⟨hip, hop, operand⟩ := fetch_eq_instr hf
  obtain ⟨hk, -⟩ := operand k hi
  have nonzero : i.opcode.arity ≠ 0 := by rw [Instr.arity_eq, Option.mem_def.1 hi]; exact one_ne_zero
  simp only [fetchAccesses, State.memRead_of_valid hip, hop, Option.bind_some, decodeOpcode_id, if_neg nonzero,
    accessAt_of_valid hip, accessAt_of_valid hk]
  rfl

theorem stepAccesses_of_dispatching (hd : Dispatching s) : stepAccesses s = dispatchAccesses s := by
  obtain ⟨-, -, hs | ⟨rest, hs⟩⟩ := hd <;> rw [stepAccesses, hs]

theorem stepAccesses_of_fetch_raised (hd : Dispatching s) {c : Condition} {o a : Int} (hf : fetch s = .raised c o a) :
    stepAccesses s = fetchAccesses s := by
  have ⟨_, running, _⟩ := hd
  simp only [stepAccesses_of_dispatching hd, dispatchAccesses, running, hf]

theorem stepAccesses_of_fetch_instr (hd : Dispatching s) (hf : fetch s = .instr i) :
    stepAccesses s = fetchAccesses s ++ dataAccess i s := by
  have ⟨_, running, _⟩ := hd
  simp only [stepAccesses_of_dispatching hd, dispatchAccesses, running, hf]

/-- Settles O44: the fetch makes up to two accesses, and only an instruction with an operand adds one. -/
theorem accessesComeInTheArbitersOrder : Obligations.AccessesComeInTheArbitersOrder := by
  intro s hd
  have ofFetch : (fetchAccesses s).map Access.requester ∈ ([[], [.opcodeFetch], [.opcodeFetch, .operandFetch]] : List _) ∧
      ∀ x ∈ fetchAccesses s, Valid s x.addr := by
    obtain e | ⟨hip, e | ⟨hk, e⟩⟩ := fetchAccesses_cases s <;> rw [e]
    · exact ⟨by simp, List.forall_mem_nil _⟩
    · exact ⟨by simp, List.forall_mem_singleton.2 hip⟩
    · exact ⟨by simp, List.forall_mem_cons.2 ⟨hip, List.forall_mem_singleton.2 hk⟩⟩
  have inList : ∀ {l}, l ∈ ([[], [.opcodeFetch], [.opcodeFetch, .operandFetch]] : List (List Requester)) →
      l ∈ ([[], [.opcodeFetch], [.opcodeFetch, .operandFetch], [.opcodeFetch, .operandFetch, .loadRead],
        [.opcodeFetch, .operandFetch, .storeWrite]] : List (List Requester)) := List.mem_append_left _
  cases hf : fetch s with
  | raised c o a =>
    rw [stepAccesses_of_fetch_raised hd hf]
    exact ⟨inList ofFetch.1, ofFetch.2⟩
  | instr i =>
    rw [stepAccesses_of_fetch_instr hd hf]
    obtain e | ⟨k, hk, ⟨rfl, e⟩ | ⟨rfl, -, e⟩⟩ := dataAccess_cases i s
    · rw [e, List.append_nil]
      exact ⟨inList ofFetch.1, ofFetch.2⟩
    all_goals
      have fetches := fetchAccesses_of_operand hf (k := k) rfl
      rw [fetches] at ofFetch
      rw [e, fetches]
      exact ⟨by simp, List.forall_mem_append.2 ⟨ofFetch.2, List.forall_mem_singleton.2 hk⟩⟩

/-! ### Which accesses write -/

theorem fetchAccesses_read {x : Access} (h : x ∈ fetchAccesses s) : x.writes = false := by
  obtain e | ⟨-, e | ⟨-, e⟩⟩ := fetchAccesses_cases s <;> rw [e] at h <;> simp at h
  · rw [h]; rfl
  · obtain rfl | rfl := h <;> rfl

/-- The writing access of a dispatch step is that of a fetched Store with a value and a valid address. -/
theorem writes_stepAccesses_iff (hd : Dispatching s) {x : Access} :
    (x ∈ stepAccesses s ∧ x.writes = true) ↔
      ∃ k, fetch s = .instr (.store k) ∧ s.stack ≠ [] ∧ Valid s k ∧ x = { requester := .storeWrite, addr := k } := by
  constructor
  · rintro ⟨hx, writes⟩
    have notFetch : x ∉ fetchAccesses s := fun h => by simp [fetchAccesses_read h] at writes
    cases hf : fetch s with
    | raised c o a => exact absurd (stepAccesses_of_fetch_raised hd hf ▸ hx) notFetch
    | instr i =>
      rw [stepAccesses_of_fetch_instr hd hf, List.mem_append] at hx
      replace hx := hx.resolve_left notFetch
      obtain e | ⟨k, hk, ⟨-, e⟩ | ⟨rfl, hs, e⟩⟩ := dataAccess_cases i s <;> rw [e] at hx
      · cases hx
      · obtain rfl := List.mem_singleton.1 hx
        cases writes
      · exact ⟨k, rfl, hs, hk, List.mem_singleton.1 hx⟩
  · rintro ⟨k, hf, hs, hk, rfl⟩
    refine ⟨?_, rfl⟩
    rw [stepAccesses_of_fetch_instr hd hf, dataAccess, if_neg (by simp [hs]), accessAt_of_valid hk]
    simp

/-! ### A cell changes only by an access that writes it -/

theorem dispatching_read_of_not_written (hd : Dispatching s) (wf : s.mem.wf) (h : step s = .next t) {x : Nat}
    (hx : ∀ y ∈ stepAccesses s, y.writes = true → y.addr ≠ x) : t.mem.read x = s.mem.read x := by
  rcases dispatching_cases hd h with ⟨c, o, a, -, rfl⟩ | ⟨i, hf, completes | ⟨c, o, -, rfl⟩⟩
  · rfl
  · have effect := effect_of_completes completes
    rw [effect.mem]
    obtain kept | ⟨k, a, rest, rfl, hs, written⟩ := memAfter_cases i (afterIdle s)
    · rw [kept]
      rfl
    · have hk := effect.validStore k rfl
      obtain ⟨access, writes⟩ := (writes_stepAccesses_iff hd).2 ⟨k, hf, fun e => by simp [afterIdle, e] at hs, hk, rfl⟩
      rw [written]
      exact (Memory.read_write_toNat wf hk.1 a.word x).trans (if_neg (Ne.symm (hx _ access writes)))
  · rfl

theorem mem_stepAccesses_of_load (hs : s.host = .load image :: rest) (ready : s.runState = .ready)
    (fits : image.length ≤ s.params.memCap) {x : Nat} (hx : x < image.length) :
    { requester := .hostLoad, addr := x } ∈ stepAccesses s := by
  simpa [stepAccesses, hs, loadAccesses, ready, Nat.not_lt.2 fits] using hx

/-- Settles O45: a dispatch step writes by its Store, LOAD by an access per word of the image. -/
theorem onlyWritingAccessesChangeMemory : Obligations.OnlyWritingAccessesChangeMemory := by
  rintro s t ⟨legal, -, ⟨wf, -⟩, -⟩ noReset h x hx
  rcases step_cases h with hd | ⟨-, -, rfl⟩ | ⟨rest, hs, -⟩ | ⟨image, rest, hs, rfl⟩ | ⟨rest, hs, rfl⟩
  · exact dispatching_read_of_not_written hd wf h hx
  · rfl
  · exact absurd hs (noReset rest)
  · obtain e | ⟨ready, e | ⟨fits, e⟩⟩ := hostLoad_cases image (afterIdle s) <;> rw [e]
    · rfl
    · rfl
    · have beyond : image.length ≤ x := by
        by_contra lt
        exact hx _ (mem_stepAccesses_of_load hs ready fits (not_le.1 lt)) rfl rfl
      have copied := Memory.read_copy_zero wf image x
      rwa [List.getElem?_eq_none beyond] at copied
  · rw [hostStart_eq]
    rfl

end Sys2Proof.Machine
end

section
/-! The proofs that compare two steps (10_state.md R25, R40; 20_memory.md R59): a change of the state that an instruction does not read
commutes with its completion, whatever the change does to the fault record. -/

open Sys2Proof.Claims

namespace Sys2Proof.Machine

variable {g : State → State} {i : Instr} {s t u : State} {op : Opcode} {k x : Int} {c : Condition} {m : Memory}

/-! ### A change that an instruction does not read -/

/-- Weaker than `Transparent`, which keeps the memory and every entry into FAULTED: `g` changes no more than the memory,
the fault record, LOAD_STATUS, the host's moves and STACK_CAP, and commutes with every update of a completed instruction but a write
of memory. -/
structure Commutes (g : State → State) : Prop where
  ip : ∀ s, (g s).ip = s.ip := by intros; rfl
  stack : ∀ s, (g s).stack = s.stack := by intros; rfl
  wordBits : ∀ s, (g s).params.wordBits = s.params.wordBits := by intros; rfl
  memCap : ∀ s, (g s).params.memCap = s.params.memCap := by intros; rfl
  overflow : ∀ s, (g s).params.overflow = s.params.overflow := by intros; rfl
  printConsumes : ∀ s, (g s).params.printConsumes = s.params.printConsumes := by intros; rfl
  debugRaCheck : ∀ s, (g s).params.debugRaCheck = s.params.debugRaCheck := by intros; rfl
  setIp : ∀ s t, (g s).setIp t = g (s.setIp t) := by intros; rfl
  drop : ∀ s n, (g s).drop n = g (s.drop n) := by intros; rfl
  push : ∀ s v, (g s).push v = g (s.push v) := by intros; rfl
  pushReturn : ∀ s v, (g s).pushReturn v = g (s.pushReturn v) := by intros; rfl
  emit : ∀ s v, (g s).emit v = g (s.emit v) := by intros; rfl
  halt : ∀ s, (g s).halt = g s.halt := by intros; rfl

theorem Commutes.advance (hg : Commutes g) (s : State) (op : Opcode) : (g s).advance op = g (s.advance op) := by
  simp only [State.advance, hg.ip, hg.setIp]

theorem Commutes.validAddr (hg : Commutes g) (s : State) (a : Int) :
    Machine.validAddr (g s).params a = Machine.validAddr s.params a := by
  simp only [Machine.validAddr, hg.memCap]

theorem Commutes.completesArith (hg : Commutes g) {f : Int → Int → Int} (h : CompletesArith op f s t) :
    CompletesArith op f (g s) (g t) := by
  obtain ⟨x, two, fits, rfl⟩ := h
  refine ⟨x, ?_, ?_, ?_⟩
  · rwa [TwoOn, hg.stack]
  · rwa [hg.wordBits, hg.overflow]
  · rw [hg.wordBits, hg.drop, hg.push, hg.advance]

theorem Commutes.completesJump (hg : Commutes g) {r : Comparison} (h : CompletesJump op r k s t) :
    CompletesJump op r k (g s) (g t) := by
  obtain ⟨a, b, rest, hs, rfl⟩ := h
  refine ⟨a, b, rest, (hg.stack s).trans hs, ?_⟩
  rw [hg.drop, hg.setIp, hg.advance]
  split <;> rfl

/-- What completes in `s` completes in `g s`, given the room it needs, the word it loads and, for Store, the write. -/
theorem Commutes.completes (hg : Commutes g) (room : s.params.stackCap ≠ some s.stack.length →
      i.opcode ∈ ([.push, .call, .load] : List Opcode) → (g s).params.stackCap ≠ some s.stack.length)
    (loads : ∀ k, i = .load k → (g s).mem.read k.toNat = s.mem.read k.toNat)
    (stores : ∀ k, i = .store k → ∀ u a v, (g u).memWrite a v = g (u.memWrite a v)) (h : Completes i s t) :
    Completes i (g s) (g t) := by
  cases i with
  | halt =>
    cases h
    exact (hg.halt s).symm
  | push k =>
    obtain ⟨fits, rfl⟩ := h
    refine ⟨?_, by rw [hg.push, hg.advance]⟩
    rw [hg.stack]
    exact room fits (by simp [Instr.opcode])
  | pop =>
    obtain ⟨one, rfl⟩ := h
    exact ⟨by rwa [hg.stack], by rw [hg.drop, hg.advance]⟩
  | add | sub | mul => exact hg.completesArith h
  | div =>
    obtain ⟨nonzero, h⟩ := h
    exact ⟨by rwa [hg.stack], hg.completesArith h⟩
  | jump k =>
    cases h
    exact (hg.setIp s k).symm
  | jumpIfEqual k | jumpIfNotEqual k | jumpIfLessThan k | jumpIfGreaterThan k | jumpIfLessThanOrEqual k
  | jumpIfGreaterThanOrEqual k => exact hg.completesJump h
  | call k =>
    obtain ⟨fits, rfl⟩ := h
    refine ⟨?_, by rw [hg.ip, hg.pushReturn, hg.setIp]⟩
    rw [hg.stack]
    exact room fits (by simp [Instr.opcode])
  | ret =>
    obtain ⟨a, rest, hs, tagged, rfl⟩ := h
    exact ⟨a, rest, by rwa [hg.stack], by rwa [hg.debugRaCheck], by rw [hg.drop, hg.setIp]⟩
  | print =>
    obtain ⟨a, rest, hs, rfl⟩ := h
    refine ⟨a, rest, by rwa [hg.stack], ?_⟩
    rw [hg.printConsumes, hg.emit, hg.drop]
    split <;> rw [hg.advance]
  | store k =>
    obtain ⟨a, rest, hs, valid, rfl⟩ := h
    exact ⟨a, rest, by rwa [hg.stack], by rwa [hg.validAddr], by rw [hg.drop, stores k rfl, hg.advance]⟩
  | load k =>
    obtain ⟨valid, fits, rfl⟩ := h
    refine ⟨by rwa [hg.validAddr], ?_, by rw [loads k rfl, hg.push, hg.advance]⟩
    rw [hg.stack]
    exact room fits (by simp [Instr.opcode])

/-- What is raised in `s` is raised in `g s`, given that the stack is still full where it was. -/
theorem Commutes.raises (hg : Commutes g)
    (full : s.params.stackCap = some s.stack.length → (g s).params.stackCap = some s.stack.length) (h : Raises i s c x) :
    Raises i (g s) c x := by
  have arith : ∀ {f}, RaisesArith f s c → RaisesArith f (g s) c := by
    intro f h
    simpa only [RaisesArith, TwoOn, hg.stack, hg.overflow, hg.wordBits] using h
  cases i with
  | push k | call k =>
    obtain ⟨zero, cond, noRoom⟩ := h
    exact ⟨zero, cond, by rw [hg.stack]; exact full noRoom⟩
  | add | sub | mul => exact h.imp_right arith
  | div =>
    obtain ⟨zero, h⟩ := h
    refine ⟨zero, ?_⟩
    rw [hg.stack]
    exact h.imp_left fun h => h.imp_left arith
  | store k =>
    rw [Raises, hg.stack, hg.validAddr]
    exact h
  | load k =>
    rw [Raises, hg.stack, hg.validAddr]
    exact h.imp_right fun ⟨cond, zero, valid, noRoom⟩ => ⟨cond, zero, valid, full noRoom⟩
  | ret =>
    rw [Raises, hg.stack, hg.debugRaCheck]
    exact h
  | halt | jump k => exact h
  | _ =>
    rw [Raises, hg.stack]
    exact h

/-! ### A host that gives no command -/

/-- A host's moves to come do not change what the dispatch step does. -/
theorem dispatchStep_withHost (host : List HostMove) (s : State) :
    dispatchStep { s with host := host } = mapNext (fun t => { t with host := host }) (dispatchStep s) := by
  by_cases running : s.runState = .running
  · rw [dispatchStep_running (s := { s with host := host }) running, dispatchStep_running running]
    rw [show fetch { s with host := host } = fetch s from (Transparent.withHost host).fetch s]
    cases fetch s with
    | instr i => exact (Transparent.withHost host).exec i rfl
    | raised c o a => rfl
  · rw [dispatchStep_of_not_running (s := { s with host := host }) running, dispatchStep_of_not_running running]
    rfl

/-- Settles O49: both are the same dispatch step, but for the host's moves. -/
theorem idleHostDoesNotDisturbTheBlock : Obligations.IdleHostDoesNotDisturbTheBlock := by
  intro s rest hs t h
  have legal : s.params.Legal := legal_of_step (s := { s with host := [] }) h
  rw [step_of_noCommand (s := { s with host := [] }) legal (.inl rfl)] at h
  have same := dispatchStep_withHost rest (afterIdle { s with host := [] })
  rw [step_of_noCommand legal (.inr ⟨rest, hs⟩), afterIdle_of_cons hs]
  rw [h] at same
  exact same

/-! ### The words delivered -/

theorem hostLoad_output (image : List Int) (s : State) : (hostLoad image s).output = s.output := by
  obtain e | ⟨-, e | ⟨-, e⟩⟩ := hostLoad_cases image s <;> rw [e]

/-- Settles O57: of a dispatch step's instructions only Print delivers, and of the other steps only RESET touches the port. -/
theorem outputGrowsByOneWordPerPrint : Obligations.OutputGrowsByOneWordPerPrint := by
  intro s t noReset h
  rcases step_cases h with hd | ⟨-, -, rfl⟩ | ⟨rest, hs, -⟩ | ⟨image, rest, -, rfl⟩ | ⟨rest, -, rfl⟩
  · rcases dispatching_cases hd h with ⟨c, o, a, -, rfl⟩ | ⟨i, hf, completes | ⟨c, x, -, rfl⟩⟩
    · exact .inl rfl
    · have output := (effect_of_completes completes).output
      obtain kept | ⟨a, rest, rfl, hs, delivered⟩ := outputAfter_cases i (afterIdle s)
      · exact .inl (output.trans kept)
      · exact .inr ⟨a, rest, hd, hf, hs, output.trans delivered⟩
    · exact .inl rfl
  · exact .inl rfl
  · exact absurd hs (noReset rest)
  · exact .inl (hostLoad_output image (afterIdle s))
  · rw [hostStart_eq]
    exact .inl rfl

/-! ### Another memory -/

/-- The same state with another memory. -/
def withMem (m : Memory) (s : State) : State := { s with mem := m }

theorem Commutes.withMem (m : Memory) : Commutes (Machine.withMem m) := {}

theorem memRead_withMem {r : Requester}
    (h : ∀ y ∈ accessAt s.params r k, m.read y.addr.toNat = s.mem.read y.addr.toNat) :
    (withMem m s).memRead k = s.memRead k := by
  by_cases hk : Valid s k
  · rw [accessAt_of_valid hk, List.forall_mem_singleton] at h
    rw [State.memRead_of_valid hk, ← h]
    exact State.memRead_of_valid (s := withMem m s) hk
  · rw [State.memRead_of_not_valid hk]
    exact State.memRead_of_not_valid (s := withMem m s) hk

/-- A fetch reads no cell but those of its accesses. -/
theorem fetch_withMem (h : ∀ y ∈ fetchAccesses s, m.read y.addr.toNat = s.mem.read y.addr.toNat) :
    fetch (withMem m s) = fetch s ∧ fetchAccesses (withMem m s) = fetchAccesses s := by
  obtain ⟨opcodeFetch, operandFetch⟩ := List.forall_mem_append.1 h
  have first : (withMem m s).memRead s.ip = s.memRead s.ip := memRead_withMem opcodeFetch
  have ip : (withMem m s).ip = s.ip := rfl
  have params : (withMem m s).params = s.params := rfl
  rw [fetch, fetch, fetchAccesses, fetchAccesses, ip, params, first]
  refine ⟨?_, rfl⟩
  cases hw : s.memRead s.ip with
  | none => rfl
  | some w =>
    cases hop : decodeOpcode w with
    | none => simp only [hop]
    | some op =>
      by_cases zero : op.arity = 0
      · simp only [hop, zero, if_true]
      · have second : (withMem m s).memRead (s.ip + 1) = s.memRead (s.ip + 1) := by
          simp only [hw, Option.bind_some, hop, if_neg zero] at operandFetch
          exact memRead_withMem operandFetch
        simp only [hop, zero, second]

theorem dataAccess_withMem (m : Memory) (i : Instr) (s : State) : dataAccess i (withMem m s) = dataAccess i s := by
  cases i <;> rfl

theorem stepAccesses_withMem (hd : Dispatching s) (hf : fetch (withMem m s) = fetch s)
    (ha : fetchAccesses (withMem m s) = fetchAccesses s) : stepAccesses (withMem m s) = stepAccesses s := by
  have hd' : Dispatching (withMem m s) := hd
  cases h : fetch s with
  | raised c o a => rw [stepAccesses_of_fetch_raised hd' (hf.trans h), stepAccesses_of_fetch_raised hd h, ha]
  | instr i => rw [stepAccesses_of_fetch_instr hd' (hf.trans h), stepAccesses_of_fetch_instr hd h, ha, dataAccess_withMem]

/-- A Load that completes reads the cell of its access. -/
theorem mem_stepAccesses_of_load_instr (hd : Dispatching s) (hf : fetch s = .instr (.load k)) (hk : Valid s k) :
    { requester := .loadRead, addr := k } ∈ stepAccesses s := by
  rw [stepAccesses_of_fetch_instr hd hf, dataAccess, accessAt_of_valid hk]
  exact List.mem_append_right _ (List.mem_singleton_self _)

/-- The cells that a step from `s` to `t` writes hold in `m'` what they do in `t`, every other cell what it does in `m`. -/
def MemoryAgrees (s t : State) (m m' : Memory) : Prop :=
  ∀ x : Nat, ((∃ y ∈ stepAccesses s, y.writes = true ∧ y.addr = x) → m'.read x = t.mem.read x) ∧
    ((∀ y ∈ stepAccesses s, y.writes = true → y.addr ≠ x) → m'.read x = m.read x)

theorem memoryAgrees_of_no_store (hd : Dispatching s)
    (noStore : ∀ k, fetch s = .instr (.store k) → s.stack ≠ [] → ¬ Valid s k) (t : State) (m : Memory) :
    MemoryAgrees s t m m := by
  refine fun x => ⟨fun ⟨y, hy, writes, _⟩ => ?_, fun _ => rfl⟩
  obtain ⟨k, hf, hs, hk, -⟩ := (writes_stepAccesses_iff hd).1 ⟨hy, writes⟩
  exact absurd hk (noStore k hf hs)

theorem memoryAgrees_of_store (hd : Dispatching s) (hf : fetch s = .instr (.store k)) (hs : s.stack ≠ []) (hk : Valid s k)
    (wf : s.mem.wf) (wf' : m.wf) {v : Int} (ht : t.mem = s.mem.write k.toNat v) :
    MemoryAgrees s t m (m.write k.toNat v) := by
  refine fun x => ⟨?_, fun untouched => ?_⟩
  · rintro ⟨y, hy, writes, address⟩
    obtain ⟨k', hf', -, -, rfl⟩ := (writes_stepAccesses_iff hd).1 ⟨hy, writes⟩
    rw [hf] at hf'
    cases hf'
    rw [ht, Memory.read_write_toNat wf' hk.1, Memory.read_write_toNat wf hk.1, if_pos address.symm, if_pos address.symm]
  · obtain ⟨access, writes⟩ := (writes_stepAccesses_iff hd).2 ⟨k, hf, hs, hk, rfl⟩
    rw [Memory.read_write_toNat wf' hk.1, if_neg (Ne.symm (untouched _ access writes))]

/-- A Store writes the same word to either memory; any other instruction that completes does the same over both. -/
theorem exec_withMem_of_completes (hd : Dispatching s) (hf : fetch s = .instr i) (wf : s.mem.wf) (wf' : m.wf)
    (loads : ∀ k, i = .load k → Valid s k → m.read k.toNat = s.mem.read k.toNat) (h : Completes i (afterIdle s) t) :
    ∃ m', exec i (afterIdle (withMem m s)) = .next { t with mem := m' } ∧ MemoryAgrees s t m m' := by
  by_cases store : ∃ k, i = .store k
  · obtain ⟨k, rfl⟩ := store
    obtain ⟨a, rest, hs, valid, rfl⟩ := h
    have nonempty : s.stack ≠ [] := fun empty => List.cons_ne_nil a rest (hs.symm.trans empty)
    exact ⟨_, exec_of_completes ⟨a, rest, hs, valid, rfl⟩,
      memoryAgrees_of_store hd hf nonempty (validAddr_iff.1 valid) wf wf' rfl⟩
  · refine ⟨m, exec_of_completes ((Commutes.withMem m).completes (s := afterIdle s) (fun room _ => room) ?_
      (fun k e => absurd ⟨k, e⟩ store) h), memoryAgrees_of_no_store hd (fun k e => ?_) t m⟩
    · rintro k rfl
      exact loads k rfl (validAddr_iff.1 h.1)
    · cases hf.symm.trans e
      exact absurd ⟨k, rfl⟩ store

/-- Settles O46: the fetch reads the same words, and what follows it does the same over either memory. -/
theorem stepReadsOnlyTheCellsItAccesses : Obligations.StepReadsOnlyTheCellsItAccesses := by
  intro s t m hd wf wf' agree h
  have fetchReads : ∀ y ∈ fetchAccesses s, m.read y.addr.toNat = s.mem.read y.addr.toNat := fun y hy => by
    refine agree y ?_ (fetchAccesses_read hy)
    cases hf : fetch s with
    | raised c o a => rwa [stepAccesses_of_fetch_raised hd hf]
    | instr i => exact stepAccesses_of_fetch_instr hd hf ▸ List.mem_append_left _ hy
  obtain ⟨hf', ha⟩ := fetch_withMem fetchReads
  have hd' : Dispatching (withMem m s) := hd
  have accesses := stepAccesses_withMem hd hf' ha
  suffices same : ∃ m', step (withMem m s) = .next { t with mem := m' } ∧ MemoryAgrees s t m m' by
    obtain ⟨m', hstep, agrees⟩ := same
    exact ⟨m', hstep, accesses, agrees⟩
  rcases dispatching_cases hd h with ⟨c, o, a, hf, rfl⟩ | ⟨i, hf, completes | ⟨c, x, raises, rfl⟩⟩
  · exact ⟨m, step_of_fetch_raised hd' (hf'.trans hf), memoryAgrees_of_no_store hd (by simp [hf]) _ m⟩
  · rw [step_of_fetch_instr hd' (hf'.trans hf)]
    refine exec_withMem_of_completes hd hf wf wf' ?_ completes
    rintro k rfl hk
    exact agree _ (mem_stepAccesses_of_load_instr hd hf hk) rfl
  · rw [step_of_fetch_instr hd' (hf'.trans hf)]
    refine ⟨m, exec_of_raises ((Commutes.withMem m).raises (s := afterIdle s) id raises), memoryAgrees_of_no_store hd ?_ _ m⟩
    intro k e hs hk
    cases hf.symm.trans e
    obtain ⟨-, -, empty⟩ | ⟨-, -, invalid, -⟩ := raises
    · exact hs empty
    · exact Bool.noConfusion (invalid.symm.trans (validAddr_iff.2 hk))

end Sys2Proof.Machine
end

section
/-! The proofs that compare two runs (10_state.md R25, R47, R48; 70_reset_and_hazards.md R226): a step with another fault record and
LOAD_STATUS, and a step with another STACK_CAP. -/

open Sys2Proof.Claims

namespace Sys2Proof.Machine

variable {i : Instr} {s t u : State} {k c : Nat} {l : BitVec 4} {r : FaultRecord}

/-! ### Another LOAD_STATUS and fault record -/

/-- The same state with another LOAD_STATUS and fault record. -/
def withRecord (l : BitVec 4) (r : FaultRecord) (s : State) : State := { s with loadStatus := l, faultRecord := r }

theorem Commutes.withRecord (l : BitVec 4) (r : FaultRecord) : Commutes (Machine.withRecord l r) := {}

theorem eq_withRecord (params : u.params = s.params) (ip : u.ip = s.ip) (stack : u.stack = s.stack) (mem : u.mem = s.mem)
    (runState : u.runState = s.runState) (output : u.output = s.output) (host : u.host = s.host) :
    u = withRecord u.loadStatus u.faultRecord s := by
  cases u
  simp_all [withRecord]

/-- `u` is `s` but for LOAD_STATUS and a fault record that no FAULTED shows. -/
def Alike (s u : State) : Prop := ∃ l r, u = withRecord l r s ∧ (s.runState = .faulted → r = s.faultRecord)

theorem alike_of_not_faulted (h : s.runState ≠ .faulted) (l : BitVec 4) (r : FaultRecord) : Alike s (withRecord l r s) :=
  ⟨l, r, rfl, fun faulted => absurd faulted h⟩

/-- A raised condition writes the whole record. -/
theorem alike_enterFault (l : BitVec 4) (r : FaultRecord) (s : State) (cond : Condition) (o a : Int) :
    Alike (s.enterFault cond o a) ((withRecord l r s).enterFault cond o a) :=
  ⟨l, _, rfl, fun _ => rfl⟩

/-- With no command of the host, states that are alike step to states that are alike. -/
theorem step_of_alike (idle : s.host = []) (h : step s = .next t) (alike : Alike s u) : ∃ v, step u = .next v ∧ Alike t v := by
  have ⟨l, r, hu, record⟩ := alike
  subst hu
  rcases step_cases h with hd | ⟨noCommand, stopped, rfl⟩ | ⟨rest, hs, -⟩ | ⟨image, rest, hs, -⟩ | ⟨rest, hs, -⟩
  · have hd' : Dispatching (withRecord l r s) := hd
    have hf' : fetch (withRecord l r s) = fetch s := rfl
    have ⟨_, running, _⟩ := hd
    rcases dispatching_cases hd h with ⟨cond, o, a, hf, rfl⟩ | ⟨i, hf, completes | ⟨cond, x, raises, rfl⟩⟩
    · exact ⟨_, step_of_fetch_raised hd' (hf'.trans hf), alike_enterFault l r (afterIdle s) cond o a⟩
    · obtain ⟨-, notFaulted, -⟩ := effect_runState (s := afterIdle s) running (effect_of_completes completes)
      have same := (Commutes.withRecord l r).completes (fun room _ => room) (fun _ _ => rfl) (fun _ _ _ _ _ => rfl) completes
      exact ⟨_, (step_of_fetch_instr hd' (hf'.trans hf)).trans (exec_of_completes same), alike_of_not_faulted notFaulted l r⟩
    · have same := (Commutes.withRecord l r).raises id raises
      exact ⟨_, (step_of_fetch_instr hd' (hf'.trans hf)).trans (exec_of_raises same),
        alike_enterFault l r (afterIdle s) cond i.opcode.id x⟩
  · exact ⟨_, step_of_stopped (s := withRecord l r s) (legal_of_step (s := s) h) noCommand stopped, l, r, rfl, record⟩
  all_goals simp [idle] at hs

theorem runFor_of_alike (idle : s.host = []) (legal : s.params.Legal) (alike : Alike s u) (k : Nat) :
    ∃ t v, runFor k s = .next t ∧ runFor k u = .next v ∧ Alike t v := by
  induction k generalizing s u with
  | zero => exact ⟨s, u, rfl, rfl, alike⟩
  | succ k ih =>
    obtain ⟨s', hs⟩ := step_isNext legal
    obtain ⟨u', hu, alike'⟩ := step_of_alike idle hs alike
    obtain ⟨params, host⟩ := step_params_host hs
    obtain ⟨t, v, ht, hv, alike''⟩ := ih (by rw [host, idle, List.tail_nil]) (params ▸ legal) alike'
    exact ⟨t, v, (runFor_succ hs k).trans ht, (runFor_succ hu k).trans hv, alike''⟩

theorem observe_eq_of_alike (h : Alike s u) : u.observe = s.observe := by
  obtain ⟨l, r, rfl, record⟩ := h
  cases hr : s.runState with
  | faulted => simp [State.observe, State.terminal, withRecord, hr, record hr]
  | _ => simp [State.observe, State.terminal, withRecord, hr]

/-- Settles O53: canonical memories that read the same are equal, so the two states are alike, and stay so. -/
theorem observationDependsOnlyOnParametersAndMemory : Obligations.ObservationDependsOnlyOnParametersAndMemory := by
  intro k s u legal params running running' ip ip' stack stack' output output' host host' wf wf' cells
  have mem : u.mem = s.mem := canonicalMemoriesWithEqualCellsAreEqual _ _ wf' wf cells
  have same := eq_withRecord params (ip'.trans ip.symm) (stack'.trans stack.symm) mem (running'.trans running.symm)
    (output'.trans output.symm) (host'.trans host.symm)
  have alike : Alike s u := same ▸ alike_of_not_faulted (by simp [running]) _ _
  obtain ⟨t, v, ht, hv, alike'⟩ := runFor_of_alike host legal alike k
  exact ⟨t, v, ht, hv, observe_eq_of_alike alike'⟩

/-! ### Another STACK_CAP -/

theorem Commutes.withStackCap (cap : Option Nat) : Commutes (Claims.withStackCap cap) := {}

theorem hostLoad_withStackCap (cap : Option Nat) (image : List Int) (s : State) :
    hostLoad image (withStackCap cap s) = withStackCap cap (hostLoad image s) := by
  by_cases ready : s.runState = .ready
  · rcases Nat.lt_or_ge s.params.memCap image.length with large | fits
    · rw [hostLoad_of_too_large ready large, hostLoad_of_too_large (s := withStackCap cap s) ready large]
      rfl
    · rw [hostLoad_of_fits ready fits, hostLoad_of_fits (s := withStackCap cap s) ready fits]
      rfl
  · rw [hostLoad_of_not_ready ready, hostLoad_of_not_ready (s := withStackCap cap s) ready]

theorem legal_withStackCap (hc : 1 ≤ c) (legal : s.params.Legal) : (withStackCap (some c) s).params.Legal := by
  obtain ⟨wordBits, memCap, -⟩ := legal
  refine ⟨wordBits, memCap, fun d hd => ?_⟩
  obtain rfl := Option.some.inj hd
  exact hc

/-- A dispatch step with an unbounded stack that ends within the bound is the step with the bound. -/
theorem dispatching_withStackCap (hc : 1 ≤ c) (unbounded : s.params.stackCap = none) (hd : Dispatching s)
    (h : step s = .next t) (within : t.stack.length ≤ c) :
    step (withStackCap (some c) s) = .next (withStackCap (some c) t) := by
  have ⟨legal, running, noCommand⟩ := hd
  have hd' : Dispatching (withStackCap (some c) s) := ⟨legal_withStackCap hc legal, running, noCommand⟩
  have hf' : fetch (withStackCap (some c) s) = fetch s := rfl
  rcases dispatching_cases hd h with ⟨cond, o, a, hf, rfl⟩ | ⟨i, hf, completes | ⟨cond, x, raises, rfl⟩⟩
  · exact step_of_fetch_raised hd' (hf'.trans hf)
  · refine (step_of_fetch_instr hd' (hf'.trans hf)).trans (exec_of_completes ?_)
    refine (Commutes.withStackCap (some c)).completes (s := afterIdle s) (fun _ hi full => ?_) (fun _ _ => rfl)
      (fun _ _ _ _ _ => rfl) completes
    have longer := effect_length_of_push (effect_of_completes completes) hi
    have depth := Option.some.inj full
    omega
  · refine (step_of_fetch_instr hd' (hf'.trans hf)).trans (exec_of_raises ?_)
    exact (Commutes.withStackCap (some c)).raises (s := afterIdle s)
      (fun full => absurd (unbounded.symm.trans full) nofun) raises

theorem step_withStackCap (hc : 1 ≤ c) (unbounded : s.params.stackCap = none) (h : step s = .next t)
    (within : t.stack.length ≤ c) : step (withStackCap (some c) s) = .next (withStackCap (some c) t) := by
  have legal := legal_withStackCap hc (legal_of_step h)
  rcases step_cases h with hd | ⟨noCommand, stopped, rfl⟩ | ⟨rest, hs, rfl⟩ | ⟨image, rest, hs, rfl⟩ | ⟨rest, hs, rfl⟩
  · exact dispatching_withStackCap hc unbounded hd h within
  · exact step_of_stopped legal noCommand stopped
  · exact step_of_host_reset legal hs
  · rw [step_of_load legal hs]
    exact congrArg _ (hostLoad_withStackCap (some c) image (afterIdle s))
  · rw [step_of_start legal hs, hostStart_eq, hostStart_eq]
    rfl

theorem runFor_withStackCap (hc : 1 ≤ c) (unbounded : s.params.stackCap = none)
    (within : ∀ j u, j ≤ k → runFor j s = .next u → u.stack.length ≤ c) (h : runFor k s = .next t) :
    runFor k (withStackCap (some c) s) = .next (withStackCap (some c) t) := by
  induction k generalizing s with
  | zero =>
    cases h
    rfl
  | succ k ih =>
    obtain ⟨u, hu, h⟩ := runFor_succ_eq_next.1 h
    obtain ⟨params, -⟩ := step_params_host hu
    have first := step_withStackCap hc unbounded hu (within 1 u (by omega) (runFor_succ hu 0))
    refine (runFor_succ first k).trans (ih (params ▸ unbounded) (fun j v hj hv => ?_) h)
    exact within (j + 1) v (by omega) ((runFor_succ hu j).trans hv)

/-- Settles O55: step by step the bound is not reached by a push. -/
theorem stackCapIsInvisibleWithinItsBound : Obligations.StackCapIsInvisibleWithinItsBound :=
  fun _ _ s _ hc within h => runFor_withStackCap (s := withStackCap none s) hc rfl within h

end Sys2Proof.Machine
end

section
/-! The proofs about whole runs (10_state.md R47; 42_control.md R130): a Jump to its own address, and that every run without RESET has
exactly one observation. -/

open Sys2Proof.Claims

namespace Sys2Proof.Machine

variable {s t u : State} {j k n : Nat} {w : Int}

/-! ### A Jump to its own address -/

theorem runFor_of_step_self (h : step s = .next s) (k : Nat) : runFor k s = .next s := by
  induction k with
  | zero => rfl
  | succ k ih => exact (runFor_succ h k).trans ih

theorem step_self_of_jump (legal : s.params.Legal) (running : s.runState = .running) (idle : s.host = []) (valid : Valid s s.ip)
    (valid' : Valid s (s.ip + 1)) (opcode : s.mem.read s.ip.toNat = 7) (target : s.mem.read (s.ip + 1).toNat = s.ip) :
    step s = .next s := by
  have hf : fetch s = .instr (.jump s.ip) :=
    (fetch_of_arity_one (op := .jump) valid opcode.symm rfl valid').trans (by rw [target]; rfl)
  have same : afterIdle s = s := by rw [afterIdle, idle, List.tail_nil, ← idle]
  rw [step_of_fetch_instr ⟨legal, running, .inl idle⟩ hf, same]
  rfl

/-- Settles O56: such a step answers the same state, so every state of the run is that one. -/
theorem jumpToItselfRunsForever : Obligations.JumpToItselfRunsForever := by
  intro s legal running idle valid valid' opcode target
  have stays := runFor_of_step_self (step_self_of_jump legal running idle valid valid' opcode target)
  have same : ∀ k t, runFor k s = .next t → t = s := fun k t h => Host.Outcome.next.inj (h.symm.trans (stays k))
  have forever : RunsForever s := fun k => ⟨s, stays k, running⟩
  refine ⟨forever, fun k t h => same k t h ▸ rfl, running, fun n w => ⟨fun h => ⟨0, s, InRun.refl s, h⟩, ?_⟩, forever⟩
  rintro ⟨k, t, ⟨h, -⟩, hw⟩
  exact same k t h ▸ hw

/-! ### The states of a run without RESET -/

/-- A started block of legal parameters whose host gives no RESET. -/
structure Live (s : State) : Prop where
  legal : s.params.Legal
  noReset : .reset ∉ s.host
  started : s.runState ≠ .ready

theorem Live.host_ne (h : Live s) (rest : List HostMove) : s.host ≠ .reset :: rest := fun e =>
  h.noReset (e ▸ List.mem_cons_self)

theorem Live.of_step (h : Live s) (hs : step s = .next t) : Live t := by
  obtain ⟨params, host⟩ := step_params_host hs
  obtain ⟨-, moves⟩ := runStateTransitions s t hs
  replace moves := moves h.host_ne
  refine ⟨params ▸ h.legal, fun mem => h.noReset (List.mem_of_mem_tail (host ▸ mem)), ?_⟩
  have started := h.started
  cases hr : s.runState <;> simp only [hr] at moves started
  · exact absurd rfl started
  · exact moves.1
  · simp [moves]
  · simp [moves]

theorem Live.of_runFor (h : Live s) (hs : runFor k s = .next t) : Live t := by
  induction k generalizing s with
  | zero => exact Host.Outcome.next.inj hs ▸ h
  | succ k ih =>
    obtain ⟨u, hu, hs⟩ := runFor_succ_eq_next.1 hs
    exact ih (h.of_step hu) hs

theorem Live.runFor_isNext (h : Live s) (k : Nat) : ∃ t, runFor k s = .next t := by
  induction k generalizing s with
  | zero => exact ⟨s, rfl⟩
  | succ k ih =>
    obtain ⟨u, hu⟩ := step_isNext h.legal
    obtain ⟨t, ht⟩ := ih (h.of_step hu)
    exact ⟨t, (runFor_succ hu k).trans ht⟩

theorem Live.terminal_isSome (h : Live s) (stopped : s.runState ≠ .running) : ∃ status, s.terminal = some status := by
  have started := h.started
  cases hr : s.runState <;> simp_all [State.terminal]

theorem not_running_of_terminal {status : TerminalStatus} (h : s.terminal = some status) : s.runState ≠ .running := by
  intro running
  simp [State.terminal, running] at h

/-- A stopped block stays as it is. -/
theorem Live.step_of_stopped (h : Live s) (stopped : s.runState ≠ .running) : step s = .next (afterIdle s) := by
  refine stopStatesKeepEverythingUntilReset s h.legal ?_ h.host_ne
  have started := h.started
  cases hr : s.runState <;> simp_all

/-! ### The words delivered along a run -/

theorem Live.output_of_step (h : Live s) (hs : step s = .next t) : s.output <+: t.output := by
  rcases outputGrowsByOneWordPerPrint s t h.host_ne hs with e | ⟨a, rest, -, -, -, e⟩
  · exact ⟨[], by rw [e, List.append_nil]⟩
  · exact ⟨[a.word], e.symm⟩

theorem Live.output_of_runFor (h : Live s) (hs : runFor k s = .next t) : s.output <+: t.output := by
  induction k generalizing s with
  | zero => exact Host.Outcome.next.inj hs ▸ List.prefix_rfl
  | succ k ih =>
    obtain ⟨u, hu, hs⟩ := runFor_succ_eq_next.1 hs
    exact (h.output_of_step hu).trans (ih (h.of_step hu) hs)

/-- A word delivered after `j` steps is at its place after `k ≥ j`. -/
theorem Live.getElem?_of_le (h : Live s) (hj : runFor j s = .next t) (hk : runFor k s = .next u) (le : j ≤ k)
    (hw : t.output[n]? = some w) : u.output[n]? = some w := by
  obtain ⟨d, rfl⟩ := Nat.exists_eq_add_of_le le
  obtain ⟨t', ht', hu⟩ := runFor_add_eq_next.1 hk
  obtain rfl := Host.Outcome.next.inj (hj.symm.trans ht')
  obtain ⟨more, e⟩ := (h.of_runFor hj).output_of_runFor hu
  have lt : n < t.output.length := (List.getElem?_eq_some_iff.1 hw).1
  rw [← e, List.getElem?_append_left lt, hw]

theorem Live.delivers_unique (h : Live s) {w' : Int} (hw : Delivers s n w) (hw' : Delivers s n w') : w = w' := by
  obtain ⟨j, t, ⟨ht, -⟩, hw⟩ := hw
  obtain ⟨k, u, ⟨hu, -⟩, hw'⟩ := hw'
  rcases Nat.le_total j k with le | le
  · exact Option.some.inj ((h.getElem?_of_le ht hu le hw).symm.trans hw')
  · exact Option.some.inj (hw.symm.trans (h.getElem?_of_le hu ht le hw'))

/-! ### The run and its end -/

theorem InRun.succ (h : InRun s k t) (running : t.runState = .running) (ht : step t = .next u) : InRun s (k + 1) u := by
  refine ⟨runFor_add_eq_next.2 ⟨t, h.1, runFor_succ ht 0⟩, fun j hj => ?_⟩
  rcases Nat.lt_succ_iff_lt_or_eq.1 hj with lt | rfl
  · exact h.2 j lt
  · exact ⟨t, h.1, running⟩

/-- A state after any number of steps is one of the run, or shows what the run's last state shows. -/
theorem Live.exists_inRun (h : Live s) (ht : runFor k s = .next t) :
    ∃ j u, InRun s j u ∧ t.observe = u.observe ∧ (t = u ∧ j = k ∨ u.runState ≠ .running ∧ t.runState ≠ .running) := by
  induction k generalizing t with
  | zero => exact ⟨0, t, ⟨ht, fun j hj => absurd hj (Nat.not_lt_zero j)⟩, rfl, .inl ⟨rfl, rfl⟩⟩
  | succ k ih =>
    obtain ⟨v, hv, hvt⟩ := runFor_add_eq_next.1 ht
    obtain ⟨v', hstep, ht⟩ := runFor_succ_eq_next.1 hvt
    obtain rfl := Host.Outcome.next.inj ht
    obtain ⟨j, u, hu, same, place⟩ := ih hv
    have stopped (hr : v.runState ≠ .running) : v' = afterIdle v :=
      Host.Outcome.next.inj (hstep.symm.trans ((h.of_runFor hv).step_of_stopped hr))
    rcases place with ⟨rfl, rfl⟩ | ⟨hur, hvr⟩
    · by_cases running : v.runState = .running
      · exact ⟨j + 1, v', hu.succ running hstep, rfl, .inl ⟨rfl, rfl⟩⟩
      · exact ⟨j, v, hu, stopped running ▸ rfl, .inr ⟨running, stopped running ▸ running⟩⟩
    · exact ⟨j, u, hu, (stopped hvr ▸ rfl : v'.observe = v.observe).trans same, .inr ⟨hur, stopped hvr ▸ hvr⟩⟩

theorem Live.delivers_of_runFor (h : Live s) (ht : runFor k s = .next t) (hw : t.output[n]? = some w) : Delivers s n w := by
  obtain ⟨j, u, hu, same, -⟩ := h.exists_inRun ht
  have output : t.output = u.output := congrArg ObservedSoFar.emitted same
  exact ⟨j, u, hu, output ▸ hw⟩

/-- How a run has its terminal status: it goes on forever, or its last state shows the status. -/
theorem endsWith_iff {status : TerminalStatus} :
    EndsWith s status ↔ (status = .runsForever ∧ RunsForever s) ∨ ∃ k t, InRun s k t ∧ t.terminal = some status := by
  have shown : ∀ t : State, t.terminal ≠ some .runsForever := fun t => by
    cases hr : t.runState <;> simp [State.terminal, hr]
  cases status <;> simp [EndsWith, shown]

theorem not_runsForever_of_terminal {status : TerminalStatus} (ht : runFor k s = .next t) (h : t.terminal = some status) :
    ¬ RunsForever s := by
  intro forever
  obtain ⟨u, hu, running⟩ := forever k
  obtain rfl := Host.Outcome.next.inj (ht.symm.trans hu)
  exact not_running_of_terminal h running

theorem endsWith_unique {a b : TerminalStatus} (ha : EndsWith s a) (hb : EndsWith s b) : a = b := by
  rcases endsWith_iff.1 ha with ⟨rfl, forever⟩ | ⟨k, t, ht, hta⟩ <;>
    rcases endsWith_iff.1 hb with ⟨rfl, forever'⟩ | ⟨j, u, hu, hub⟩
  · rfl
  · exact absurd forever (not_runsForever_of_terminal hu.1 hub)
  · exact absurd forever' (not_runsForever_of_terminal ht.1 hta)
  · obtain rfl := ht.end_unique hu (not_running_of_terminal hta) (not_running_of_terminal hub)
    obtain rfl := ht.state_unique hu
    exact Option.some.inj (hta.symm.trans hub)

theorem Live.exists_endsWith (h : Live s) : ∃ status, EndsWith s status := by
  by_cases forever : RunsForever s
  · exact ⟨.runsForever, forever⟩
  · rw [RunsForever, not_forall] at forever
    obtain ⟨k, hk⟩ := forever
    obtain ⟨t, ht⟩ := h.runFor_isNext k
    have stopped : t.runState ≠ .running := fun running => hk ⟨t, ht, running⟩
    obtain ⟨status, hstatus⟩ := (h.of_runFor ht).terminal_isSome stopped
    obtain ⟨j, u, hu, same, -⟩ := h.exists_inRun ht
    exact ⟨status, endsWith_iff.2 (.inr ⟨j, u, hu, (congrArg ObservedSoFar.terminal same).symm.trans hstatus⟩)⟩

/-! ### The observation -/

open Classical in
/-- The word delivered at each place of the run that `s` is in, where there is one. -/
noncomputable def deliveredWord (s : State) (n : Nat) : Option Int :=
  if h : ∃ w, Delivers s n w then some h.choose else none

theorem Live.deliveredWord_eq_some_iff (h : Live s) : deliveredWord s n = some w ↔ Delivers s n w := by
  unfold deliveredWord
  split
  next hex =>
    rw [Option.some_inj]
    exact ⟨fun e => e ▸ hex.choose_spec, h.delivers_unique hex.choose_spec⟩
  next hno => exact ⟨nofun, fun hw => absurd ⟨w, hw⟩ hno⟩

/-- A state that has ended shows every word of the run. -/
theorem Live.output_of_terminal (h : Live s) {status : TerminalStatus} (ht : runFor k s = .next t)
    (hstatus : t.terminal = some status) : EndsWith s status ∧ ∀ n, deliveredWord s n = t.output[n]? := by
  obtain ⟨j, u, hu, same, -⟩ := h.exists_inRun ht
  have output : t.output = u.output := congrArg ObservedSoFar.emitted same
  have hstatus' : u.terminal = some status := (congrArg ObservedSoFar.terminal same).symm.trans hstatus
  refine ⟨endsWith_iff.2 (.inr ⟨j, u, hu, hstatus'⟩), fun n => Option.ext fun w => h.deliveredWord_eq_some_iff.trans ⟨?_, ?_⟩⟩
  · rintro ⟨k', v, hv, hw⟩
    have le : k' ≤ j := not_lt.1 fun lt => not_running_of_terminal hstatus' (hv.running_of_lt lt hu.1)
    rw [output]
    exact h.getElem?_of_le hv.1 hu.1 le hw
  · exact h.delivers_of_runFor ht

/-- Settles O58: the words delivered at each place and the way the run ends are determined, and each state shows its part. -/
theorem everyRunHasOneObservation : Obligations.EveryRunHasOneObservation := by
  intro s legal running noReset
  have live : Live s := ⟨legal, noReset, by simp [running]⟩
  obtain ⟨status, hstatus⟩ := live.exists_endsWith
  have words : ∀ n w, deliveredWord s n = some w ↔ Delivers s n w := fun _ _ => live.deliveredWord_eq_some_iff
  refine ⟨⟨deliveredWord s, status⟩, ⟨running, words, hstatus⟩, ?_, fun k t ht => ⟨fun n w hw => ?_, fun shown hshown => ?_⟩⟩
  · rintro ⟨emitted, terminal⟩ ⟨-, hwords, hterminal⟩
    obtain rfl : emitted = deliveredWord s := funext fun n => Option.ext fun w => (hwords n w).trans (words n w).symm
    obtain rfl : terminal = status := endsWith_unique hterminal hstatus
    rfl
  · exact (words n w).2 (live.delivers_of_runFor ht hw)
  · obtain ⟨ends, all⟩ := live.output_of_terminal ht hshown
    exact ⟨endsWith_unique hstatus ends, all⟩

end Sys2Proof.Machine
end
